-- ==== Sys2Proof/Word.lean ====
section
/-! DEFINITION. The word types of the HLL-CLZ block (00_scope.md R8). Every value is unsigned (R11); bit 0 is the
least significant bit (R10). -/

namespace Sys2Proof

/-- A key, a data word `D`, a result word or a table entry: 64 bits (R8). -/
abbrev Word := BitVec 64

/-- A control word `CW`: 16 bits (R8, R50). -/
abbrev CtrlWord := BitVec 16

/-- The value of one cell of the register array: 6 bits (R7, R8). -/
abbrev RegVal := BitVec 6

/-- The input of the lookup table: one byte (R8, R84). -/
abbrev Byte := BitVec 8

/-- A harmonic sum: 84 bits, 63 of them fraction bits (R8, R86). -/
abbrev FixSum := BitVec 84

/-- A status code: 3 bits (R8, R103). -/
abbrev StatusCode := BitVec 3

end Sys2Proof
end

