-- ==== Sys2Proof/Syntax.lean ====
section
/-! DEFINITION. The seven commands (R2, R53), the pair a host sends for one (R49, R50), and why a control word may spell
none (R54). -/

namespace Sys2Proof

/-- A command as the host presents it: the control word and the data word beside it (R49, R50). -/
structure Command where
  /-- The control word. -/
  cw : CtrlWord
  /-- The data word. -/
  d : Word
  deriving DecidableEq, Repr

/-- The commands, one constructor per row of spec/opcode_table.json. CONFIG, REDUCE and STATUS carry no data word, since
they ignore it (R52). An immediate is a natural number in [0, 63] (R51); `Instr.wellFormed` checks the range. -/
inductive Instr where
  /-- CONFIG (R69): construct the estimator with the requested width. -/
  | config (width : Nat)
  /-- ADD (R81): add a hashed key. -/
  | add (key : Word)
  /-- REDUCE (R91): sum the array and count its zero registers. -/
  | reduce
  /-- READREG (R83): read one register. -/
  | readreg (index : Word)
  /-- STATUS (R73): read the configuration. -/
  | status
  /-- CLZ (R67): count the leading zeros of a word. -/
  | clz (word : Word)
  /-- SPLIT (R68): split a word at `n`. -/
  | split (n : Nat) (word : Word)
  deriving DecidableEq, Repr

/-- Why a control word is illegal (R54), one name per cause. Each is answered with the status ILLEGAL (R104). -/
inductive Illegal where
  /-- `CW[15:10]` is not 0. -/
  | reservedBits
  /-- `op` is 0x0 or one of 0x8 to 0xF. -/
  | reservedOpcode
  /-- `imm6` is not 0 on ADD, REDUCE, READREG, STATUS or CLZ. -/
  | immediateNotZero
  deriving DecidableEq, Repr

end Sys2Proof
end

