-- ==== Sys2Proof/Decode.lean ====
section
/-! DEFINITION. The decoder (R55), total on every control word and rejecting by name, and the encoder written from the
same tables (R53, R58, R60). -/

namespace Sys2Proof

/-- `CW[3:0]`, the opcode (R50). -/
def opField (cw : CtrlWord) : Nat := (cw.extractLsb' 0 4).toNat

/-- `CW[9:4]`, the immediate, zero-extended and neither scaled nor shifted (R50, R51). -/
def immField (cw : CtrlWord) : Nat := (cw.extractLsb' 4 6).toNat

/-- `CW[15:10]`, the reserved bits (R50). -/
def rsvField (cw : CtrlWord) : Nat := (cw.extractLsb' 10 6).toNat

/-- A command whose immediate must be 0 (R54). -/
def withoutImmediate (cw : CtrlWord) (i : Instr) : Except Illegal Instr :=
  if immField cw = 0 then .ok i else .error .immediateNotZero

/-- The decoder, in the order of R55's function: the reserved bits, then the opcode, then the immediate. -/
def decode (c : Command) : Except Illegal Instr :=
  if rsvField c.cw ≠ 0 then .error .reservedBits
  else
    match opField c.cw with
    | 1 => .ok (.config (immField c.cw))
    | 7 => .ok (.split (immField c.cw) c.d)
    | 2 => withoutImmediate c.cw (.add c.d)
    | 3 => withoutImmediate c.cw .reduce
    | 4 => withoutImmediate c.cw (.readreg c.d)
    | 5 => withoutImmediate c.cw .status
    | 6 => withoutImmediate c.cw (.clz c.d)
    | _ => .error .reservedOpcode

/-- The opcode of a command (R53). -/
def Instr.opcode : Instr → BitVec 4
  | .config _ => 0x1
  | .add _ => 0x2
  | .reduce => 0x3
  | .readreg _ => 0x4
  | .status => 0x5
  | .clz _ => 0x6
  | .split _ _ => 0x7

/-- The immediate field of a command: `W` for CONFIG, `n` for SPLIT, else 0 (R50, R53). -/
def Instr.imm6 : Instr → BitVec 6
  | .config width => BitVec.ofNat 6 width
  | .split n _ => BitVec.ofNat 6 n
  | .add _ => 0
  | .reduce => 0
  | .readreg _ => 0
  | .status => 0
  | .clz _ => 0

/-- The data word of a command: its operand, and 0 for the commands that ignore it, as the assembler writes it (R58). -/
def Instr.dataWord : Instr → Word
  | .add key => key
  | .readreg index => index
  | .clz word => word
  | .split _ word => word
  | .config _ => 0
  | .reduce => 0
  | .status => 0

/-- The pair that spells a command: `CW = {rsv = 0, imm6, op}` and its data word (R50, R53, R60). -/
def encode (i : Instr) : Command :=
  ⟨(0 : BitVec 6) ++ i.imm6 ++ i.opcode, i.dataWord⟩

/-- A table word as a command (log 14): `CW` is bits 15..0 and `D` is bits 79..16; every bit from `nbits` up is 0. -/
def commandOfTableWord (nbits w : Nat) : Command :=
  let bits := w % 2 ^ nbits
  ⟨BitVec.ofNat 16 bits, BitVec.ofNat 64 (bits >>> 16)⟩

/-- What the decoder reads from a word numbered as spec/opcode_table.json numbers it; none where it refuses. -/
def decodeTableWord (nbits w : Nat) : Option Instr :=
  match decode (commandOfTableWord nbits w) with
  | .ok i => some i
  | .error _ => none

end Sys2Proof
end

