-- ==== Sys2Proof/Config.lean ====
section
/-! DEFINITION. What the block fixes for good, and the values the spec leaves free. -/

namespace Sys2Proof

/-- The least legal register width (R5, R70). -/
abbrev Config.minWidth : Nat := 8

/-- The greatest legal register width (R5, R70). -/
abbrev Config.maxWidth : Nat := 20

/-- The number of physical cells of the register array, whatever the width (R6, R21). -/
def Config.numCells : Nat := 2 ^ 20

/-- FREE VALUE (log 1; R30, R117; 93_implementation_defined.md I4). What cell `i` of the register array holds after the
reset numbered `draw`: "any 6-bit value, possibly different per cell". It has no body, so nothing can be proved of it. -/
opaque Config.resetCell (draw i : Nat) : RegVal

end Sys2Proof
end

