-- ==== Sys2Proof/Machine/State.lean ====
section
/-! DEFINITION. Everything the spec gives the block (10_state.md), the ports of 30_encoding.md R49 at the transaction
level of D1, and the state right after reset. -/

namespace Sys2Proof.Machine

/-- The configuration fields (R18, R29). -/
structure Cfg where
  /-- CFG.valid: a CONFIG has succeeded since reset (R19). -/
  valid : Bool
  /-- CFG.W: the configured register width, 0 before configuration (R20). -/
  w : BitVec 5
  deriving DecidableEq, Repr

/-- What the cells hold that no entry lists. -/
inductive Fill where
  /-- Each holds 0: CONFIG has cleared the array (R69). -/
  | zero
  /-- Each holds an unspecified value, drawn at the reset numbered `draw` (R30, R117; log 1). -/
  | unspecified (draw : Nat)
  deriving DecidableEq, Repr

/-- The register array REG, the block's only memory (R21, R32): the cells that differ from `fill`, as (index, value)
entries. `Memory.wf` (Ops.lean) is the one canonical form. -/
structure Memory where
  /-- What an unlisted cell holds. -/
  fill : Fill
  /-- The listed cells, indexes strictly rising. -/
  cells : List (Nat × RegVal)
  deriving DecidableEq, Repr

/-- The status of a response (R103). There is no name for codes 6 and 7: they are never produced. -/
inductive Status where
  /-- The command completed. -/
  | ok
  /-- The control word spells no command (R104). -/
  | illegal
  /-- The command needs a configured block (R105). -/
  | notConfigured
  /-- CONFIG of a configured block (R106). -/
  | alreadyConfigured
  /-- CONFIG with a width outside [8, 20] (R107). -/
  | badWidth
  /-- READREG of an index outside the array, or SPLIT at 0 (R108). -/
  | badArg
  deriving DecidableEq, Repr

/-- The response record, each field at its port's width (R49, R56). -/
structure Response where
  /-- The 3-bit status code (R103). -/
  status : StatusCode
  /-- First result word. -/
  r0 : Word
  /-- Second result word. -/
  r1 : Word
  /-- The harmonic sum (REDUCE only). -/
  sum : FixSum
  deriving DecidableEq, Repr

/-- What the host does at the ports, one entry at a time (R49; log 2). -/
inductive HostAction where
  /-- Hold `cmd_valid` with this command until the block accepts it (R122). -/
  | command (c : Command)
  /-- Assert `rst` (R117). -/
  | rst
  /-- Drive `rsp_ready` to this level. -/
  | rspReady (level : Bool)
  deriving DecidableEq, Repr

/-- The block and its ports. `cfg` and `reg` are the block's whole persistent state (R18); the other fields are the ports
(R49), what the host does and has received there, and the model's reset count. -/
structure State where
  /-- The configuration fields (R19, R20). -/
  cfg : Cfg
  /-- The register array (R21). -/
  reg : Memory
  /-- What the host does next at the ports, oldest first (log 2). -/
  inputs : List HostAction
  /-- The level the host drives on `rsp_ready` (R49; log 3). -/
  rspReady : Bool
  /-- The response offered and not yet taken: `rsp_valid` is 1, and `cmd_ready` 0, while there is one (R122). -/
  rspPort : Option Response
  /-- The responses delivered so far, oldest first (R125): the host's record, read by no command (R31). -/
  delivered : List Response
  /-- The number of resets so far: the next reset's draw of unspecified contents (the model's own field; log 1). -/
  draw : Nat
  deriving DecidableEq, Repr

/-- Why a step, or the host's estimate, can end with no value. -/
inductive Fault where
  /-- Raised by ADD while CFG.W is outside [1, 63], where the split has no meaning (R66). No run from reset reaches such
  a state (R20). Safe: the model stops and gives no value (log 6). -/
  | splitUndefined
  /-- Raised by ADD, READREG and REDUCE when an index names no physical cell (R21), which needs CFG.W above 20. No run from
  reset reaches such a state (R20). Safe: the model stops and gives no value (log 6). -/
  | noSuchCell
  /-- The host-side fault EstimateOverflow of R98, raised by the reference function `count`, never by a step. Safe: the
  spec gives no value either. -/
  | estimateOverflow
  deriving DecidableEq, Repr

/-- Why an instruction has no meaning. -/
inductive Refusal where
  /-- Raised by an arm of `exec` whose instruction has no meaning yet; no arm raises it now. Safe. -/
  | notModelled (mnemonic : String)
  deriving DecidableEq, Repr

/-- The block right after its power-on reset (R30, R117, R119): unconfigured, array unspecified (log 1), waiting for the
host's first command; nothing offered yet (log 2), the host ready to take responses (log 3). -/
def State.reset : State where
  cfg := ⟨false, 0⟩
  reg := ⟨.unspecified 0, []⟩
  inputs := []
  rspReady := true
  rspPort := none
  delivered := []
  draw := 1

end Sys2Proof.Machine
end

