-- ==== Sys2Proof/Machine/Flags.lean ====
section
/-! DEFINITION. The block has no condition flags (R26). What stands in their place: the status code of a response (R103)
and the image of the configuration fields (R29). -/

namespace Sys2Proof.Machine

/-- The 3-bit code of a status (R103). -/
def Status.code : Status → StatusCode
  | .ok => 0
  | .illegal => 1
  | .notConfigured => 2
  | .alreadyConfigured => 3
  | .badWidth => 4
  | .badArg => 5

/-- One bit as a bit vector. -/
def bitOf (b : Bool) : BitVec 1 := BitVec.ofBool b

/-- The image of CFG in STATUS's `r0`: bits 4:0 are CFG.W, bit 8 is CFG.valid, every other bit is 0 (R29, R73). -/
def cfgImage (c : Cfg) : Word :=
  (bitOf c.valid ++ (0 : BitVec 3) ++ c.w).setWidth 64

end Sys2Proof.Machine
end

