-- ==== Sys2Proof/Machine/Ops.lean ====
section
/-! DEFINITION. The named operations over the register array, the response port and reset, shared by every meaning. -/

namespace Sys2Proof.Machine

/-- What a cell that no entry lists reads as: 0 after CONFIG's clear (R69), the reset's free value before it (R30). -/
def unlisted (f : Fill) (i : Nat) : RegVal :=
  match f with
  | .zero => 0
  | .unspecified draw => Config.resetCell draw i

/-- The entry of a cell, if it is listed. -/
def lookupCell (i : Nat) : List (Nat × RegVal) → Option RegVal
  | [] => none
  | (j, v) :: rest => if i = j then some v else lookupCell i rest

/-- `REG[i]` (R13). -/
def Memory.read (r : Memory) (i : Nat) : RegVal :=
  match lookupCell i r.cells with
  | some v => v
  | none => unlisted r.fill i

/-- List a cell at its place in the rising order, over any earlier entry of it. -/
def insertCell (i : Nat) (v : RegVal) : List (Nat × RegVal) → List (Nat × RegVal)
  | [] => [(i, v)]
  | (j, u) :: rest =>
    if i < j then (i, v) :: (j, u) :: rest
    else if i = j then (i, v) :: rest
    else (j, u) :: insertCell i v rest

/-- Unlist a cell. -/
def eraseCell (i : Nat) : List (Nat × RegVal) → List (Nat × RegVal)
  | [] => []
  | (j, u) :: rest => if i = j then rest else (j, u) :: eraseCell i rest

/-- `REG[i] <- v` (R13), keeping the canonical form: a value that an unlisted cell reads as is not listed. -/
def Memory.write (r : Memory) (i : Nat) (v : RegVal) : Memory :=
  if v = unlisted r.fill i then { r with cells := eraseCell i r.cells }
  else { r with cells := insertCell i v r.cells }

/-- The array with 0 in every one of its physical cells: CONFIG's clear, one step (R40, R69). -/
def Memory.cleared : Memory := ⟨.zero, []⟩

/-- Indexes strictly rising, the first at `lo` or above. -/
def risingFrom (lo : Nat) : List (Nat × RegVal) → Bool
  | [] => true
  | (j, _) :: rest => decide (lo ≤ j) && risingFrom (j + 1) rest

/-- The canonical form: indexes strictly rising and below 2^20, and no entry equal to what an unlisted cell reads as. -/
def Memory.wf (r : Memory) : Bool :=
  risingFrom 0 r.cells &&
    r.cells.all fun c => decide (c.1 < Config.numCells) && decide (c.2 ≠ unlisted r.fill c.1)

/-- Read a cell of the state's array; an index from 2^20 up names no cell (R21; log 6). -/
def readCell (s : State) (i : Nat) : Except Fault RegVal :=
  if i < Config.numCells then .ok (s.reg.read i) else .error .noSuchCell

/-- Write a cell of the state's array. -/
def writeCell (s : State) (i : Nat) (v : RegVal) : State :=
  { s with reg := s.reg.write i v }

/-- A response is delivered when it is offered and the host holds `rsp_ready` at 1 (R49). -/
def deliver (s : State) : State :=
  match s.rspReady, s.rspPort with
  | true, some r => { s with rspPort := none, delivered := s.delivered ++ [r] }
  | _, _ => s

/-- Offer a response record at the response port; with `rsp_ready` at 1 it is delivered at once (R49, R124; log 3). -/
def offer (r : Response) (s : State) : State :=
  deliver { s with rspPort := some r }

/-- `respond(status, r0, r1, sum)`: end a command with its one response (R14, R56). -/
def respond (st : Status) (r0 r1 : Word) (sum : FixSum) (s : State) : State :=
  offer ⟨st.code, r0, r1, sum⟩ s

/-- `reject(S)`: end a command with status `S`, every result 0, and no change to `cfg` or `reg` (R14, R109). This is all
that an error does: the block has no trap, saves nothing and goes to no vector (R102, R113), so there is no return from
one either (R114). -/
def reject (st : Status) (s : State) : State :=
  respond st 0 0 0 s

/-- The effect of `rst` (R117, R118): unconfigured, every cell unspecified, and no response for a command in progress. What
the host drives and has received is not the block's and stays. -/
def applyReset (s : State) : State :=
  { s with
    cfg := ⟨false, 0⟩
    reg := ⟨.unspecified s.draw, []⟩
    rspPort := none
    draw := s.draw + 1 }

/-- The host drives `rsp_ready` to a level; a response then offered is delivered (R49). -/
def setRspReady (level : Bool) (s : State) : State :=
  deliver { s with rspReady := level }

end Sys2Proof.Machine
end

