-- ==== Sys2Proof/Machine/Operands.lean ====
section
/-! DEFINITION. The operand forms of the commands: the configured width and register count (R5, R6), the index in a data
word (R52), and the zero extensions of results (R12, R57). -/

namespace Sys2Proof.Machine

/-- `W`, the configured register width as a natural number (R5, R20). -/
abbrev width (s : State) : Nat := s.cfg.w.toNat

/-- `m = 2^CFG.W`, the register count (R6). -/
abbrev numRegs (s : State) : Nat := 2 ^ width s

/-- A width CONFIG accepts: exactly 8 to 20, never clamped (R70). -/
def legalWidth (w : Nat) : Bool :=
  decide (Config.minWidth ≤ w) && decide (w ≤ Config.maxWidth)

/-- `zext_64` of a register value (R12, R57). -/
def zextReg (v : RegVal) : Word := v.setWidth 64

/-- `zext_8` of a register value: the table's input (R85). -/
def tableInput (v : RegVal) : Byte := v.setWidth 8

/-- A count in a result word (R57). -/
def countWord (n : Nat) : Word := BitVec.ofNat 64 n

end Sys2Proof.Machine
end

