-- ==== Sys2Proof/Machine/BitUtil.lean ====
section
/-! DEFINITION. The bit utilities and their commands CLZ and SPLIT (40_bit_utilities.md). -/

namespace Sys2Proof.Machine

/-- The number of leading zeros of the low `k` bits of a word, scanning from bit `k - 1` down (R61). -/
def clzBelow (w : Word) : Nat → Nat
  | 0 => 0
  | k + 1 => if w.getLsbD k then 0 else clzBelow w k + 1

/-- `clz64(w)`: the number of leading zero bits from bit 63 down, 64 when `w = 0` (R61). -/
def clz64 (w : Word) : Nat := clzBelow w 64

/-- The CLZ tree of R62 over the `2^k` bits of a word that start at bit `lo`: the high half's count, and the low half's too
only when the high half is all zero. Not used by a meaning; a claim says that it gives `clz64`. -/
def clzTree (w : Word) : (k : Nat) → (lo : Nat) → Nat
  | 0, lo => if w.getLsbD lo then 0 else 1
  | k + 1, lo =>
    let h := 2 ^ k
    let a := clzTree w k (lo + h)
    if a = h then h + clzTree w k lo else a

/-- `split(w, n)` = (head, tail), for `n` in [1, 63] only: elsewhere the split has no meaning and no value (R64, R66). -/
def splitWord (w : Word) (n : Nat) : Option (Word × Word) :=
  if 1 ≤ n ∧ n ≤ 63 then some (w >>> (64 - n), w <<< n) else none

/-- CLZ (R67). -/
def execClz (word : Word) (s : State) : Host.Outcome State Fault Refusal :=
  .next (respond .ok (countWord (clz64 word)) 0 0 s)

/-- SPLIT (R68): BAD_ARG where the split has no meaning, which an encoding spells only as `n = 0` (log 7). -/
def execSplit (n : Nat) (word : Word) (s : State) : Host.Outcome State Fault Refusal :=
  match splitWord word n with
  | none => .next (reject .badArg s)
  | some (head, tail) => .next (respond .ok head tail 0 s)

end Sys2Proof.Machine
end

