-- ==== Sys2Proof/Machine/Construction.lean ====
section
/-! DEFINITION. Construction: CONFIG and STATUS (41_construction.md). -/

namespace Sys2Proof.Machine

/-- The block constructed with a width: every cell 0, CFG set (R69). -/
def construct (w : Nat) (s : State) : State :=
  { s with cfg := ⟨true, BitVec.ofNat 5 w⟩, reg := Memory.cleared }

/-- CONFIG (R69): the configuration state is checked before the width (R110). -/
def execConfig (w : Nat) (s : State) : Host.Outcome State Fault Refusal :=
  if s.cfg.valid then .next (reject .alreadyConfigured s)
  else if legalWidth w then .next (respond .ok 0 0 0 (construct w s))
  else .next (reject .badWidth s)

/-- STATUS (R73). -/
def execStatus (s : State) : Host.Outcome State Fault Refusal :=
  .next (respond .ok (cfgImage s.cfg) 0 0 s)

end Sys2Proof.Machine
end

