-- ==== Sys2Proof/Machine/Reduction.lean ====
section
/-! DEFINITION. The reduction path: the lookup table, the exact sum, the zero count, and REDUCE (43_count.md). -/

namespace Sys2Proof.Machine

/-- The lookup table (R84): `2^(63 - b)` for `b` up to 63, that is `2^(-b)` with 63 fraction bits, and 0 above, where it
is never addressed (R85). -/
def lut (b : Byte) : Word :=
  if b.toNat ≤ 63 then BitVec.ofNat 64 (2 ^ (63 - b.toNat)) else 0

/-- The table's output for one register, as a natural number (R85, R86). -/
def tableTerm (r : Memory) (i : Nat) : Nat := (lut (tableInput (r.read i))).toNat

/-- The harmonic sum `S_fix` of the first `m` registers, exact (R86). -/
def harmonicSum (r : Memory) (m : Nat) : Nat :=
  ((List.range m).map (tableTerm r)).sum

/-- The zero count `Z` of the first `m` registers (R89). -/
def zeroCount (r : Memory) (m : Nat) : Nat :=
  (List.range m).countP fun i => decide (r.read i = 0)

/-- A shape of the reduction tree (R87): adders over table outputs. Not used by a meaning, since the shape is not
observable; a claim says that every shape gives `harmonicSum`. -/
inductive AdderTree where
  /-- The table output of one register. -/
  | term (i : Nat)
  /-- An adder. -/
  | adder (left right : AdderTree)
  deriving DecidableEq, Repr

/-- The registers a reduction tree reads, left to right. -/
def AdderTree.inputs : AdderTree → List Nat
  | .term i => [i]
  | .adder l r => l.inputs ++ r.inputs

/-- The sum a reduction tree computes, no intermediate sum rounded or truncated (R87). -/
def AdderTree.total (r : Memory) : AdderTree → Nat
  | .term i => tableTerm r i
  | .adder a b => a.total r + b.total r

/-- REDUCE (R91). The fault needs a CFG.W that no run from reset holds (R20; log 6). -/
def execReduce (s : State) : Host.Outcome State Fault Refusal :=
  if s.cfg.valid then
    if numRegs s ≤ Config.numCells then
      .next (respond .ok (countWord (zeroCount s.reg (numRegs s))) 0
        (BitVec.ofNat 84 (harmonicSum s.reg (numRegs s))) s)
    else .fault .noSuchCell
  else .next (reject .notConfigured s)

end Sys2Proof.Machine
end

