-- ==== Sys2Proof/Machine/Update.lean ====
section
/-! DEFINITION. The update path: ADD and READREG (42_add.md). -/

namespace Sys2Proof.Machine

/-- The rank of a remainder at width `w`, with the zero-remainder clamp (R76, R77). -/
def rank (rem : Word) (w : Nat) : Nat :=
  if rem = 0 then 65 - w else clz64 rem + 1

/-- The conditional max update of one cell whose value is `old` (R80): the write is skipped when the rank is not larger
(log 9). -/
def raiseCell (s : State) (index : Nat) (old : RegVal) (rk : Nat) : State :=
  if old.toNat < rk then writeCell s index (BitVec.ofNat 6 rk) else s

/-- ADD (R81). The two faults need a CFG.W that no run from reset holds (R20; log 6). -/
def execAdd (key : Word) (s : State) : Host.Outcome State Fault Refusal :=
  if s.cfg.valid then
    match splitWord key (width s) with
    | none => .fault .splitUndefined
    | some (index, rem) =>
      match readCell s index.toNat with
      | .error f => .fault f
      | .ok old => .next (respond .ok 0 0 0 (raiseCell s index.toNat old (rank rem (width s))))
  else .next (reject .notConfigured s)

/-- READREG (R83). The fault needs a CFG.W that no run from reset holds (R20; log 6). -/
def execReadreg (index : Word) (s : State) : Host.Outcome State Fault Refusal :=
  if s.cfg.valid then
    if index.toNat < numRegs s then
      match readCell s index.toNat with
      | .error f => .fault f
      | .ok v => .next (respond .ok (zextReg v) 0 0 s)
    else .next (reject .badArg s)
  else .next (reject .notConfigured s)

end Sys2Proof.Machine
end

