-- ==== Sys2Proof/Machine/Dispatch.lean ====
section
/-! DEFINITION. One arm per command (R53), each one direct call of its meaning. -/

namespace Sys2Proof.Machine

def exec (i : Instr) (s : State) : Host.Outcome State Fault Refusal :=
  match i with
  | .config w => Sys2Proof.Machine.execConfig w s
  | .add key => Sys2Proof.Machine.execAdd key s
  | .reduce => Sys2Proof.Machine.execReduce s
  | .readreg index => Sys2Proof.Machine.execReadreg index s
  | .status => Sys2Proof.Machine.execStatus s
  | .clz word => Sys2Proof.Machine.execClz word s
  | .split n word => Sys2Proof.Machine.execSplit n word s

end Sys2Proof.Machine
end

