-- ==== Sys2Proof/Machine/Ports.lean ====
section
/-! DEFINITION. What an accepted command does (decode, then its meaning), and what the block does at its ports with what
the host offers (R49, R117, R119, R122). -/

namespace Sys2Proof.Machine

/-- `cmd_valid`: the host offers a command (R49). -/
def cmdValid (s : State) : Bool :=
  match s.inputs with
  | .command _ :: _ => true
  | _ => false

/-- `rsp_valid`: the block offers a response (R49). -/
def rspValid (s : State) : Bool := s.rspPort.isSome

/-- `cmd_ready`: the block accepts a command; 0 from the acceptance of one until its response is taken (R49, R122). -/
def cmdReady (s : State) : Bool := !rspValid s

/-- Perform one accepted command: an illegal control word is rejected with ILLEGAL and does nothing else (R54, R104),
every other is the command it spells (R55). -/
def performCommand (c : Command) (s : State) : Host.Outcome State Fault Refusal :=
  match decode c with
  | .error _ => .next (reject .illegal s)
  | .ok i => exec i s

/-- A command is offered while `cmd_ready = 0`: it stays offered, neither lost nor duplicated. The host that holds it can
still assert `rst`, which acts whatever the block is doing, and drive `rsp_ready`; a second command waits behind the first
(R117, R122; log 5). -/
def waitCommand (c : Command) (rest : List HostAction) (s : State) : State :=
  match rest with
  | .rst :: later => applyReset { s with inputs := .command c :: later }
  | .rspReady level :: later => setRspReady level { s with inputs := .command c :: later }
  | .command _ :: _ => deliver s
  | [] => deliver s

/-- A command is offered: with `cmd_ready = 1` (no response outstanding) it is accepted and performed, else it waits (R49,
R122). -/
def acceptCommand (c : Command) (rest : List HostAction) (s : State) : Host.Outcome State Fault Refusal :=
  if cmdReady s then performCommand c { s with inputs := rest } else .next (waitCommand c rest s)

/-- One step at the ports: the host's next action, or nothing when it offers none (R119; log 2, log 4). -/
def stepPorts (s : State) : Host.Outcome State Fault Refusal :=
  match s.inputs with
  | [] => .next (deliver s)
  | .command c :: rest => acceptCommand c rest s
  | .rst :: rest => .next (applyReset { s with inputs := rest })
  | .rspReady level :: rest => .next (setRspReady level { s with inputs := rest })

/-- The host offers a command next, to a block whose response port is free (log 2, log 14). -/
def offerCommand (c : Command) (s : State) : State :=
  { s with inputs := .command c :: s.inputs, rspPort := none }

end Sys2Proof.Machine
end

