-- ==== Sys2Proof/Machine/Step.lean ====
section
/-! DEFINITION. One step of the machine: a command is one atomic step (R40, D1). -/

namespace Sys2Proof.Machine

/-- One step (next, fault or refusal). -/
def step (s : State) : Host.Outcome State Fault Refusal := stepPorts s

/-- The state with a table word's command offered next, so that the very next step performs it (log 2, log 14). -/
def State.withFetchWord (s : State) (nbits w : Nat) : State :=
  offerCommand (commandOfTableWord nbits w) s

end Sys2Proof.Machine
end

