-- ==== Sys2Proof/Machine/Assembler.lean ====
section
/-! DEFINITION. The spec's assembly language, one command per line (R58), with no pseudo-instructions (R59). Its open
points are in log 13. -/

namespace Sys2Proof.Machine

/-- Why a line produces no command (R58). -/
inductive AsmError where
  /-- The line's first word is no mnemonic and not `.word`. -/
  | unknownMnemonic
  /-- The operands are not the numbers the mnemonic takes. -/
  | badOperands
  /-- An operand is outside its range. -/
  | outOfRange
  deriving DecidableEq, Repr

/-- A line without its comment: `;` starts one (R58). -/
def withoutComment : List Char → List Char
  | [] => []
  | c :: cs => if c = ';' then [] else c :: withoutComment cs

/-- The word gathered so far, if it has a character. -/
def flushToken (gathered : List Char) : List (List Char) :=
  if gathered = [] then [] else [gathered.reverse]

/-- The words of a line: separated by white space, a comma a word of its own. -/
def tokens (gathered : List Char) : List Char → List (List Char)
  | [] => flushToken gathered
  | c :: cs =>
    if c.isWhitespace then flushToken gathered ++ tokens [] cs
    else if c = ',' then flushToken gathered ++ [','] :: tokens [] cs
    else tokens (c :: gathered) cs

/-- The value of a decimal or hex digit. -/
def digitValue (c : Char) : Option Nat :=
  if '0' ≤ c ∧ c ≤ '9' then some (c.toNat - '0'.toNat)
  else if 'a' ≤ c ∧ c ≤ 'f' then some (c.toNat - 'a'.toNat + 10)
  else if 'A' ≤ c ∧ c ≤ 'F' then some (c.toNat - 'A'.toNat + 10)
  else none

/-- The number some digits spell in a base, with `_` allowed between two digits (R58). -/
def digitsValue (base value : Nat) (afterDigit : Bool) : List Char → Option Nat
  | [] => if afterDigit then some value else none
  | c :: cs =>
    if c = '_' then
      if afterDigit then digitsValue base value false cs else none
    else
      match digitValue c with
      | none => none
      | some k => if k < base then digitsValue base (value * base + k) true cs else none

/-- A numeric operand: decimal, or hex with a `0x` prefix (R58). -/
def numberOf : List Char → Option Nat
  | '0' :: 'x' :: cs => digitsValue 16 0 false cs
  | cs => digitsValue 10 0 false cs

/-- The operands of a line: numbers, a comma between two. -/
def operandsOf : List (List Char) → Option (List Nat)
  | [] => some []
  | [a] => (numberOf a).map fun k => [k]
  | [_, _] => none
  | a :: comma :: b :: rest =>
    if comma = [','] then
      match numberOf a, operandsOf (b :: rest) with
      | some k, some ks => some (k :: ks)
      | _, _ => none
    else none

/-- The command a mnemonic and a range check give. -/
def inRange (ok : Bool) (c : Command) : Except AsmError (Option Command) :=
  if ok then .ok (some c) else .error .outOfRange

/-- The command a mnemonic (in capitals) and its operands assemble to, with R58's ranges: a width or split point in
[0, 63], a data word below 2^64, a raw control word below 2^16. -/
def assembleWith (mnemonic : List Char) (ops : List Nat) : Except AsmError (Option Command) :=
  let is (name : String) : Bool := decide (mnemonic = name.toList)
  if is "CONFIG" then
    match ops with
    | [w] => inRange (decide (w ≤ 63)) (encode (.config w))
    | _ => .error .badOperands
  else if is "ADD" then
    match ops with
    | [key] => inRange (decide (key < 2 ^ 64)) (encode (.add (BitVec.ofNat 64 key)))
    | _ => .error .badOperands
  else if is "REDUCE" then
    match ops with
    | [] => .ok (some (encode .reduce))
    | _ => .error .badOperands
  else if is "READREG" then
    match ops with
    | [index] => inRange (decide (index < 2 ^ 64)) (encode (.readreg (BitVec.ofNat 64 index)))
    | _ => .error .badOperands
  else if is "STATUS" then
    match ops with
    | [] => .ok (some (encode .status))
    | _ => .error .badOperands
  else if is "CLZ" then
    match ops with
    | [word] => inRange (decide (word < 2 ^ 64)) (encode (.clz (BitVec.ofNat 64 word)))
    | _ => .error .badOperands
  else if is "SPLIT" then
    match ops with
    | [n, word] => inRange (decide (n ≤ 63) && decide (word < 2 ^ 64)) (encode (.split n (BitVec.ofNat 64 word)))
    | _ => .error .badOperands
  else if is ".WORD" then
    match ops with
    | [cw, d] => inRange (decide (cw < 2 ^ 16) && decide (d < 2 ^ 64)) ⟨BitVec.ofNat 16 cw, BitVec.ofNat 64 d⟩
    | _ => .error .badOperands
  else .error .unknownMnemonic

/-- Assemble one line: none for a line with no command on it, mnemonics in any case (R58). -/
def assembleLine (line : String) : Except AsmError (Option Command) :=
  match tokens [] (withoutComment line.toList) with
  | [] => .ok none
  | mnemonic :: rest =>
    match operandsOf rest with
    | none => .error .badOperands
    | some ops => assembleWith (mnemonic.map Char.toUpper) ops

end Sys2Proof.Machine
end

