-- ==== Sys2Proof/Machine/Estimate.lean ====
section
/-! DEFINITION. The host-side reference function `count` (43_count.md, R92 to R98). It is not hardware: no step calls it.
Everything rational is computed exactly; the logarithm is Mathlib's real one (R16); the host's arithmetic is the parameter
`HostNumerics` (R9, R100; log 10). -/

namespace Sys2Proof.Machine

/-- The bias constant `α(m) = 0.7213 / (1 + 1.079 / m)`, the literals as exact rationals (R16, R92, R99). -/
def biasConstant (m : Nat) : ℚ := (7213 / 10000) / (1 + (1079 / 1000) / m)

/-- The harmonic mean in the source's sense, `H = 2^63 / S_fix` (R90). -/
def harmonicMean (sfix : Nat) : ℚ := 2 ^ 63 / sfix

/-- The raw estimate `E = α(m) · m² · H` (R93). -/
def rawEstimate (m sfix : Nat) : ℚ := biasConstant m * m ^ 2 * harmonicMean sfix

/-- The three results a host computes in its own arithmetic: the parameter HOST_NUMERICS (R9, R100). -/
structure HostNumerics where
  /-- The comparison `E < 2.5 · m`, from `m` and `S_fix`. -/
  belowThreshold : Nat → Nat → Bool
  /-- `floor(E)`, from `m` and `S_fix`. -/
  floorRaw : Nat → Nat → Nat
  /-- `floor(m · ln(m / Z))`, from `m` and `Z`. -/
  floorLinear : Nat → Nat → Nat

/-- `c = floor(m · ln(m / z))` over the reals (R16, R94). -/
def IsLinearCount (m z c : Nat) : Prop :=
  (c : ℝ) ≤ m * Real.log (m / z) ∧ m * Real.log (m / z) < c + 1

/-- The reference arithmetic (R16, R100): exact in all three results. -/
def HostNumerics.Exact (num : HostNumerics) : Prop :=
  ∀ m sfix z, 0 < m → 0 < sfix → 1 ≤ z → z ≤ m →
    (num.belowThreshold m sfix = true ↔ rawEstimate m sfix < 5 / 2 * m) ∧
    ((num.floorRaw m sfix : ℚ) ≤ rawEstimate m sfix ∧ rawEstimate m sfix < num.floorRaw m sfix + 1) ∧
    IsLinearCount m z (num.floorLinear m z)

/-- A host exact in the two rational results, whatever its logarithm. -/
def rationalNumerics (floorLinear : Nat → Nat → Nat) : HostNumerics where
  belowThreshold m sfix := decide (rawEstimate m sfix < 5 / 2 * m)
  floorRaw m sfix := (rawEstimate m sfix).floor.toNat
  floorLinear := floorLinear

/-- `c`, before the 64-bit check (R94, R95): linear counting below the threshold while some register is 0, else `floor(E)`.
-/
def estimateValue (num : HostNumerics) (w sfix z : Nat) : Nat :=
  if num.belowThreshold (2 ^ w) sfix && decide (0 < z) then num.floorLinear (2 ^ w) z
  else num.floorRaw (2 ^ w) sfix

/-- `count(W, S_fix, Z)` (R95): an estimate of `2^64` or more is the fault EstimateOverflow, never a value (R98). -/
def count (num : HostNumerics) (w sfix z : Nat) : Except Fault Word :=
  if 2 ^ 64 ≤ estimateValue num w sfix z then .error .estimateOverflow
  else .ok (BitVec.ofNat 64 (estimateValue num w sfix z))

/-- The estimate a host computes from the response of a REDUCE on a block of width `w` (R3, R91, R95). -/
def countOfResponse (num : HostNumerics) (w : Nat) (r : Response) : Except Fault Word :=
  count num w r.sum.toNat r.r0.toNat

end Sys2Proof.Machine
end

