-- ==== Sys2Proof/Safety.lean ====
section
/-! DEFINITION. What the claims speak of: the invariant of the block, the response of a command, what a host can observe,
and runs. -/

namespace Sys2Proof.Machine

/-- R20: CFG.W is legal while configured, 0 while not. -/
def CfgOk (c : Cfg) : Prop :=
  (c.valid = true → 8 ≤ c.w.toNat ∧ c.w.toNat ≤ 20) ∧ (c.valid = false → c.w = 0)

/-- R24, R25: while configured, every addressable register is at most 65 - CFG.W and every other cell is 0. -/
def ArrayOk (s : State) : Prop :=
  s.cfg.valid = true →
    s.reg.fill = .zero ∧ (∀ i, i < numRegs s → (s.reg.read i).toNat ≤ 65 - width s) ∧
      ∀ i, numRegs s ≤ i → s.reg.read i = 0

/-- R30: until a CONFIG succeeds nothing is written, and the array holds the contents a reset drew (log 1). -/
def UnconfiguredOk (s : State) : Prop :=
  s.cfg.valid = false → ∃ draw, s.reg = ⟨.unspecified draw, []⟩

/-- R103, R109: a response's code is one of 0 to 5, and a rejection's results are 0. -/
def ResponseOk (r : Response) : Prop :=
  r.status.toNat ≤ 5 ∧ (r.status ≠ Status.ok.code → r.r0 = 0 ∧ r.r1 = 0 ∧ r.sum = 0)

/-- A response waits at the port only while the host does not take it (R49). -/
def PortOk (s : State) : Prop :=
  s.rspPort.isSome = true → s.rspReady = false

/-- The invariant of the block: it holds at reset, and every step keeps it. -/
structure Inv (s : State) : Prop where
  /-- R20. -/
  cfg : CfgOk s.cfg
  /-- R24, R25. -/
  array : ArrayOk s
  /-- R30. -/
  unconfigured : UnconfiguredOk s
  /-- The array's canonical form. -/
  canonical : s.reg.wf = true
  /-- R49. -/
  port : PortOk s
  /-- R103, R109, of the response at the port. -/
  offered : ∀ r, s.rspPort = some r → ResponseOk r
  /-- R103, R109, of every response delivered. -/
  received : ∀ r, r ∈ s.delivered → ResponseOk r

/-- Configured with a legal width: what ADD, READREG and REDUCE need (R105, R20). -/
def Configured (s : State) : Prop :=
  s.cfg.valid = true ∧ 8 ≤ width s ∧ width s ≤ 20

/-- The response a performed command produced, read off the state after it: the last one delivered, or the one at the port
where the host does not take it. -/
def lastResponse (s : State) : Option Response :=
  if s.rspReady then s.delivered.getLast? else s.rspPort

/-- Whether a command needs a configured block (R53, R105). -/
def needsConfig : Instr → Bool
  | .add _ => true
  | .reduce => true
  | .readreg _ => true
  | .config _ => false
  | .status => false
  | .clz _ => false
  | .split _ _ => false

/-- Whether a command needs an unconfigured block (R53, R106). -/
def needsUnconfigured : Instr → Bool
  | .config _ => true
  | .add _ => false
  | .reduce => false
  | .readreg _ => false
  | .status => false
  | .clz _ => false
  | .split _ _ => false

/-- Whether a command's operand value is one it rejects, and with what status (R107, R108). -/
def valueError (s : State) : Instr → Option Status
  | .config w => if 8 ≤ w ∧ w ≤ 20 then none else some .badWidth
  | .readreg index => if index.toNat < 2 ^ s.cfg.w.toNat then none else some .badArg
  | .split n _ => if n = 0 then some .badArg else none
  | .add _ => none
  | .reduce => none
  | .status => none
  | .clz _ => none

/-- The status of a command by R110's order: decoding, then the configuration state, then the operand value. -/
def expectedStatus (c : Command) (s : State) : Status :=
  match decode c with
  | .error _ => .illegal
  | .ok i =>
    if needsConfig i = true ∧ s.cfg.valid = false then .notConfigured
    else if needsUnconfigured i = true ∧ s.cfg.valid = true then .alreadyConfigured
    else (valueError s i).getD .ok

/-- Two states a host cannot tell apart: the same configuration and ports, and, while configured, the same addressable
registers (R25, R30). -/
def SameToHost (s t : State) : Prop :=
  s.cfg = t.cfg ∧ s.inputs = t.inputs ∧ s.rspReady = t.rspReady ∧ s.rspPort = t.rspPort ∧ s.delivered = t.delivered ∧
    (s.cfg.valid = true → ∀ i, i < numRegs s → s.reg.read i = t.reg.read i)

/-- The host asserts `rst` next: it is the next action, or the one behind a command that waits (R117, R122). -/
def ResetNext (s : State) : Prop :=
  (∃ rest, s.inputs = .rst :: rest) ∨ s.rspPort.isSome = true ∧ ∃ c rest, s.inputs = .command c :: .rst :: rest

/-- A run of `k` steps, stopping at the first fault or refusal (R125 is such a run with every input a command). -/
def runSteps : Nat → State → Host.Outcome State Fault Refusal
  | 0, s => .next s
  | k + 1, s =>
    match step s with
    | .next t => runSteps k t
    | .fault f => .fault f
    | .refused r => .refused r

/-- A sequence of commands, each on the state the one before it left. -/
def execAll : List Instr → State → Host.Outcome State Fault Refusal
  | [], s => .next s
  | i :: rest, s =>
    match exec i s with
    | .next t => execAll rest t
    | .fault f => .fault f
    | .refused r => .refused r

/-- A sequence of commands as the host sends them, illegal ones among them (R102), each on the state the one before it
left. -/
def performAll : List Command → State → Host.Outcome State Fault Refusal
  | [], s => .next s
  | c :: rest, s =>
    match performCommand c s with
    | .next t => performAll rest t
    | .fault f => .fault f
    | .refused r => .refused r

/-- A sequence of ADDs (R42). -/
def addAll (keys : List Word) (s : State) : Host.Outcome State Fault Refusal :=
  execAll (keys.map .add) s

/-- The register a key maps to at width `w` (R74). -/
def keyIndex (key : Word) (w : Nat) : Nat := (key >>> (64 - w)).toNat

/-- The rank of a key at width `w` (R75 to R77). -/
def keyRank (key : Word) (w : Nat) : Nat := rank (key <<< w) w

/-- The largest rank among the keys that map to a register, and 0 if none does (R42). -/
def largestRank (keys : List Word) (w j : Nat) : Nat :=
  (keys.filter fun key => keyIndex key w = j).foldr (fun key best => max (keyRank key w) best) 0

end Sys2Proof.Machine
end

