-- ==== Sys2Proof/WellFormed.lean ====
section
/-! DEFINITION. Which commands can be spelled at all: the operand ranges the assembler checks (R58) and the 6-bit field
can carry (R50, R51). -/

namespace Sys2Proof

/-- The immediates of CONFIG and SPLIT are in [0, 63] (R51, R58). Widths outside [8, 20] and n = 0 are well formed: the
block rejects them by value (R54). -/
def Instr.wellFormed : Instr → Bool
  | .config width => decide (width ≤ 63)
  | .add _ => true
  | .reduce => true
  | .readreg _ => true
  | .status => true
  | .clz _ => true
  | .split n _ => decide (n ≤ 63)

end Sys2Proof
end

