-- ==== Sys2Proof/Certificates/Slice0/Obligations.lean ====
section
/-! DEFINITION. The statements for the provers. Each docstring names the rule it formalises, or says that it is derived and
from what. -/

open Sys2Proof Sys2Proof.Machine Host.Outcome

/-! ### The encoding (30_encoding.md) -/

/-- Derived (30_encoding.md): no operand bit is lost between encoder and decoder, for every well-formed command. -/
def Obligations.DecodeOfEncodeIsTheCommand : Prop :=
  ∀ i : Instr, i.wellFormed = true → decode (encode i) = .ok i

/-- R60: the encodings written out there, from the assembly text to `CW` and `D`, and the illegal ADD of its last row. -/
def Obligations.EncodingsWrittenOutInTheSpec : Prop :=
  assembleLine "CONFIG 8" = .ok (some ⟨0x0081, 0x0000000000000000⟩) ∧
  assembleLine "CONFIG 20" = .ok (some ⟨0x0141, 0x0000000000000000⟩) ∧
  assembleLine "CONFIG 7" = .ok (some ⟨0x0071, 0x0000000000000000⟩) ∧
  assembleLine "CONFIG 21" = .ok (some ⟨0x0151, 0x0000000000000000⟩) ∧
  assembleLine "ADD 0x0100000000000001" = .ok (some ⟨0x0002, 0x0100000000000001⟩) ∧
  assembleLine "REDUCE" = .ok (some ⟨0x0003, 0x0000000000000000⟩) ∧
  assembleLine "READREG 1" = .ok (some ⟨0x0004, 0x0000000000000001⟩) ∧
  assembleLine "STATUS" = .ok (some ⟨0x0005, 0x0000000000000000⟩) ∧
  assembleLine "CLZ 0xFF" = .ok (some ⟨0x0006, 0x00000000000000FF⟩) ∧
  assembleLine "SPLIT 8, 0x123456789ABCDEF0" = .ok (some ⟨0x0087, 0x123456789ABCDEF0⟩) ∧
  assembleLine "SPLIT 63, 0x1" = .ok (some ⟨0x03F7, 0x0000000000000001⟩) ∧
  assembleLine "SPLIT 0, 0x1" = .ok (some ⟨0x0007, 0x0000000000000001⟩) ∧
  assembleLine ".word 0x0012, 0" = .ok (some ⟨0x0012, 0x0000000000000000⟩) ∧
  decode ⟨0x0012, 0x0000000000000000⟩ = .error .immediateNotZero

/-- Derived (30_encoding.md; 95_test_vectors.md): words written out bit by bit from the format of R50, one for each
command, decode to the command they stand for, and three illegal ones do not. -/
def Obligations.WordsWrittenOutBitByBitDecode : Prop :=
  (∀ d, decode ⟨0b000000_001110_0001, d⟩ = .ok (.config 14)) ∧
  decode ⟨0b000000_000000_0010, 0x0123456789ABCDEF⟩ = .ok (.add 0x0123456789ABCDEF) ∧
  (∀ d, decode ⟨0b000000_000000_0011, d⟩ = .ok .reduce) ∧
  decode ⟨0b000000_000000_0100, 0xFFFFF⟩ = .ok (.readreg 0xFFFFF) ∧
  (∀ d, decode ⟨0b000000_000000_0101, d⟩ = .ok .status) ∧
  decode ⟨0b000000_000000_0110, 0x8000000000000000⟩ = .ok (.clz 0x8000000000000000) ∧
  decode ⟨0b000000_101001_0111, 0x123456789ABCDEF0⟩ = .ok (.split 41 0x123456789ABCDEF0) ∧
  (∀ d, decode ⟨0b000000_000001_0101, d⟩ = .error .immediateNotZero) ∧
  (∀ d, decode ⟨0b111111_000000_0111, d⟩ = .error .reservedBits) ∧
  (∀ d, decode ⟨0b000000_000000_1000, d⟩ = .error .reservedOpcode)

/-- R54, R104: a control word is illegal exactly for the listed causes (written over the number `CW`), and an illegal
command is rejected with ILLEGAL and does nothing else. A CONFIG with any immediate and a SPLIT at 0 are legal encodings
that the command rejects by value. -/
def Obligations.IllegalControlWordsAndTheirRejection : Prop :=
  (∀ (c : Command) (s : State),
    let op := c.cw.toNat % 16
    let imm6 := c.cw.toNat / 16 % 64
    let rsv := c.cw.toNat / 1024
    let illegal := op = 0 ∨ 8 ≤ op ∨ rsv ≠ 0 ∨ ((op = 2 ∨ op = 3 ∨ op = 4 ∨ op = 5 ∨ op = 6) ∧ imm6 ≠ 0)
    (illegal → (∃ e, decode c = .error e) ∧ performCommand c s = next (respond .illegal 0 0 0 s)) ∧
    (¬illegal → ∃ i, decode c = .ok i) ∧
    (¬illegal → ∀ t r, performCommand c s = next t → lastResponse t = some r → r.status ≠ Status.illegal.code) ∧
    (rsv = 0 → op = 1 → (imm6 < 8 ∨ 20 < imm6) → s.cfg.valid = false →
      performCommand c s = next (respond .badWidth 0 0 0 s)) ∧
    (rsv = 0 → op = 7 → imm6 = 0 → performCommand c s = next (respond .badArg 0 0 0 s)))

/-- Derived (30_encoding.md): the counts at the end of R55, for every data word: 64 control words spell CONFIG, 64 SPLIT,
one each of the other five commands, and the other 65403 are illegal. -/
def Obligations.ControlWordsCountedByCommand : Prop :=
  ∀ d : Word,
    let spelling (op : Nat) :=
      (List.range 65536).countP fun k =>
        match decode ⟨BitVec.ofNat 16 k, d⟩ with
        | .ok i => decide (i.opcode.toNat = op)
        | .error _ => false
    spelling 1 = 64 ∧ spelling 7 = 64 ∧ spelling 2 = 1 ∧ spelling 3 = 1 ∧ spelling 4 = 1 ∧ spelling 5 = 1 ∧
      spelling 6 = 1 ∧
      ((List.range 65536).countP fun k =>
        match decode ⟨BitVec.ofNat 16 k, d⟩ with
        | .ok _ => false
        | .error _ => true) = 65403

/-- R51, R52: the immediate is the number in `CW[9:4]`, neither extended by sign nor scaled; the data word reaches ADD,
READREG, CLZ and SPLIT unchanged; and CONFIG, REDUCE and STATUS ignore it. Every other command with a nonzero immediate is
illegal. -/
def Obligations.ImmediateAndDataOperands : Prop :=
  ∀ (cw : CtrlWord) (d d' : Word) (s : State), cw.toNat / 1024 = 0 →
    let op := cw.toNat % 16
    let imm := cw.toNat / 16
    (op = 1 → decode ⟨cw, d⟩ = .ok (.config imm)) ∧
    (op = 7 → decode ⟨cw, d⟩ = .ok (.split imm d)) ∧
    (op = 2 → imm = 0 → decode ⟨cw, d⟩ = .ok (.add d)) ∧
    (op = 4 → imm = 0 → decode ⟨cw, d⟩ = .ok (.readreg d)) ∧
    (op = 6 → imm = 0 → decode ⟨cw, d⟩ = .ok (.clz d)) ∧
    (op = 2 ∨ op = 3 ∨ op = 4 ∨ op = 5 ∨ op = 6 → imm ≠ 0 → ∃ e, decode ⟨cw, d⟩ = .error e) ∧
    (op = 1 ∨ op = 3 ∨ op = 5 → performCommand ⟨cw, d⟩ s = performCommand ⟨cw, d'⟩ s)

/-- Derived (30_encoding.md): the assembler's range check (R58) is well-formedness; an operand out of range produces no
command; and what it does produce is the encoding of the command written. `operands` are the numbers of the line. -/
def Obligations.AssemblerRangesAndEncodings : Prop :=
  (∀ w, assembleWith "CONFIG".toList [w] =
    if (Instr.config w).wellFormed then .ok (some (encode (.config w))) else .error .outOfRange) ∧
  (∀ n (word : Word), assembleWith "SPLIT".toList [n, word.toNat] =
    if (Instr.split n word).wellFormed then .ok (some (encode (.split n word))) else .error .outOfRange) ∧
  (∀ word : Word, assembleWith "ADD".toList [word.toNat] = .ok (some (encode (.add word))) ∧
    assembleWith "READREG".toList [word.toNat] = .ok (some (encode (.readreg word))) ∧
    assembleWith "CLZ".toList [word.toNat] = .ok (some (encode (.clz word)))) ∧
  (∀ k, 2 ^ 64 ≤ k → ∀ n, assembleWith "ADD".toList [k] = .error .outOfRange ∧
    assembleWith "READREG".toList [k] = .error .outOfRange ∧ assembleWith "CLZ".toList [k] = .error .outOfRange ∧
    assembleWith "SPLIT".toList [n, k] = .error .outOfRange) ∧
  (assembleWith "REDUCE".toList [] = .ok (some (encode .reduce)) ∧
    assembleWith "STATUS".toList [] = .ok (some (encode .status))) ∧
  (∀ c : Command, assembleWith ".WORD".toList [c.cw.toNat, c.d.toNat] = .ok (some c))

/-! ### The step -/

/-- Derived (20_memory.md, 30_encoding.md): when the host offers a command that decodes and no response is outstanding, the
step takes it off the list of inputs and is `exec` of the decoded command. -/
def Obligations.StepPerformsTheDecodedCommand : Prop :=
  ∀ (s : State) (c : Command) (rest : List HostAction) (i : Instr),
    s.inputs = .command c :: rest → s.rspPort = none → decode c = .ok i → step s = exec i { s with inputs := rest }

/-- Derived (30_encoding.md, 70_reset_and_hazards.md): every step that performs no legal command. An illegal command is
rejected. With nothing offered the block waits, also with a response held at `rsp_ready` 0: the model's choice, log 4. The
response held is delivered in the step that raises `rsp_ready`; with nothing held, or lowered, only the level changes: the
model's choice, log 3. A command that cannot be accepted waits, and the entry behind it acts if it drives another port: the
model's choice, log 5. `rst` acts in either place; that it drops the response outstanding is the model's choice, log 8. The
clauses with a response held at `rsp_ready` 1 are about states that no run reaches. -/
def Obligations.StepWithoutACommandToPerform : Prop :=
  (∀ s : State, s.inputs = [] → s.rspPort = none → step s = next s) ∧
  (∀ s : State, s.inputs = [] → s.rspReady = false → step s = next s) ∧
  (∀ (s : State) (r : Response), s.inputs = [] → s.rspReady = true → s.rspPort = some r →
    step s = next { s with rspPort := none, delivered := s.delivered ++ [r] }) ∧
  (∀ (s : State) (c : Command) (rest : List HostAction) (e : Illegal),
    s.inputs = .command c :: rest → s.rspPort = none → decode c = .error e →
      step s = next (respond .illegal 0 0 0 { s with inputs := rest })) ∧
  (∀ (s : State) (rest : List HostAction) (r : Response),
    s.inputs = .rspReady true :: rest → s.rspPort = some r →
      step s = next { s with
        inputs := rest, rspReady := true, rspPort := none, delivered := s.delivered ++ [r] }) ∧
  (∀ (s : State) (rest : List HostAction), s.inputs = .rspReady true :: rest → s.rspPort = none →
    step s = next { s with inputs := rest, rspReady := true }) ∧
  (∀ (s : State) (rest : List HostAction), s.inputs = .rspReady false :: rest →
    step s = next { s with inputs := rest, rspReady := false }) ∧
  (∀ (s : State) (c : Command) (rest : List HostAction) (r : Response),
    s.inputs = .command c :: .rspReady true :: rest → s.rspPort = some r →
      step s = next { s with
        inputs := .command c :: rest, rspReady := true, rspPort := none, delivered := s.delivered ++ [r] }) ∧
  (∀ (s : State) (c : Command) (rest : List HostAction) (r : Response),
    s.inputs = .command c :: .rspReady false :: rest → s.rspPort = some r →
      step s = next { s with inputs := .command c :: rest, rspReady := false }) ∧
  (∀ (s : State) (c : Command) (rest : List HostAction) (r : Response),
    s.inputs = .command c :: rest → (rest = [] ∨ ∃ c' later, rest = .command c' :: later) → s.rspPort = some r →
      (s.rspReady = false → step s = next s) ∧
      (s.rspReady = true → step s = next { s with rspPort := none, delivered := s.delivered ++ [r] })) ∧
  (∀ (s : State) (rest : List HostAction), s.inputs = .rst :: rest → step s = next (applyReset { s with inputs := rest })) ∧
  (∀ (s : State) (c : Command) (rest : List HostAction) (r : Response),
    s.inputs = .command c :: .rst :: rest → s.rspPort = some r →
      step s = next (applyReset { s with inputs := .command c :: rest }))

/-- Derived (30_encoding.md R49, 70_reset_and_hazards.md R122): the handshake loses and duplicates nothing. A command offered
while `cmd_ready` is 1 is accepted, once, and has one response: delivered at once while the host takes responses (that this
is the very step that produces it is the model's choice, log 3), or held at the port with `cmd_ready` at 0. A command offered
while `cmd_ready` is 0 stays offered and is not performed; nothing at all changes unless the host drives another port
meanwhile (the model's choice, log 5). `cmd_ready` rises again only as the response is delivered, or by reset (the model's
choice, log 8). -/
def Obligations.HandshakeLosesAndDuplicatesNothing : Prop :=
  ∀ s t : State, Inv s → step s = next t →
    (cmdValid s = true → cmdReady s = true → t.inputs = s.inputs.tail ∧ ∃ r,
      (s.rspReady = true → t.delivered = s.delivered ++ [r] ∧ cmdReady t = true) ∧
      (s.rspReady = false → t.delivered = s.delivered ∧ t.rspPort = some r ∧ cmdReady t = false)) ∧
    (cmdValid s = true → cmdReady s = false → t.inputs.head? = s.inputs.head? ∧
      (¬ResetNext s → t.cfg = s.cfg ∧ t.reg = s.reg) ∧
      (¬ResetNext s → (∀ c level rest, s.inputs ≠ .command c :: .rspReady level :: rest) → t = s)) ∧
    (cmdReady s = false → cmdReady t = true →
      (∃ r, s.rspPort = some r ∧ t.delivered = s.delivered ++ [r]) ∨ ResetNext s)

/-- Derived (10_state.md, 70_reset_and_hazards.md): `rst` puts the block in its reset state whatever it was doing:
unconfigured, CFG.W 0, every cell unspecified. The model's choices: the unspecified contents are the free value drawn at this
reset (log 1); `rsp_ready` and the responses received are the host's and stay (log 3); a command that waits is still offered
after the reset (log 5); the response outstanding is dropped (log 8). -/
def Obligations.ResetFromAnyState : Prop :=
  ∀ s : State, ResetNext s →
    ∃ t, step s = next t ∧ t.cfg.valid = false ∧ t.cfg.w = 0 ∧ (∀ i, t.reg.read i = Config.resetCell s.draw i) ∧
      t.rspPort = none ∧ t.rspReady = s.rspReady ∧ t.delivered = s.delivered ∧
      (∀ rest, s.inputs = .rst :: rest → t.inputs = rest) ∧
      (∀ c rest, s.inputs = .command c :: .rst :: rest → t.inputs = .command c :: rest)

/-! ### The bit utilities (40_bit_utilities.md) -/

/-- R61: `clz64(w)` is 64 for 0 and otherwise 63 less the place of the highest 1 bit; it is in [0, 64]. -/
def Obligations.ClzCountsFromTheTop : Prop :=
  clz64 0 = 64 ∧
  (∀ (w : Word) (i : Nat), i ≤ 63 → w.getLsbD i = true → (∀ j, i < j → w.getLsbD j = false) → clz64 w = 63 - i) ∧
  (∀ w : Word, clz64 w ≤ 64)

/-- R62: the CLZ tree, which splits into halves and adds the low half's count only when the high half is all zero, gives
`clz64`. The recursion is the rule's own, over any function that meets its equations on the bits of a word. -/
def Obligations.ClzTreeGivesClz : Prop :=
  (∀ w lo, clzTree w 0 lo = if w.getLsbD lo = true then 0 else 1) ∧
  (∀ w k lo, clzTree w (k + 1) lo =
    if clzTree w k (lo + 2 ^ k) = 2 ^ k then 2 ^ k + clzTree w k lo else clzTree w k (lo + 2 ^ k)) ∧
  (∀ w, clzTree w 6 0 = clz64 w)

/-- R63: 64 at 0; 0 when bit 63 is set; strictly monotonic in the place of the highest set bit, and the bits below it do not
matter. `msb` is any function that gives the place of the highest set bit of a nonzero word. -/
def Obligations.ClzProperties : Prop :=
  clz64 0 = 64 ∧ (∀ w : Word, w.getLsbD 63 = true → clz64 w = 0) ∧
  ∀ msb : Word → Nat,
    (∀ w : Word, w ≠ 0 → w.getLsbD (msb w) = true ∧ ∀ j, msb w < j → w.getLsbD j = false) →
      ∀ w w' : Word, w ≠ 0 → w' ≠ 0 →
        (msb w' < msb w → clz64 w < clz64 w') ∧ (msb w = msb w' → clz64 w = clz64 w')

/-- R64: for n in [1, 63], head is the top n bits right-aligned and tail the others left-aligned. -/
def Obligations.SplitHeadAndTail : Prop :=
  ∀ (w : Word) (n : Nat), 1 ≤ n → n ≤ 63 →
    ∃ head tail, splitWord w n = some (head, tail) ∧
      head = w >>> (64 - n) ∧ tail = w <<< n ∧ head.toNat < 2 ^ n ∧ (∀ i, i < n → tail.getLsbD i = false) ∧
      (∀ i, i < n → head.getLsbD i = w.getLsbD (64 - n + i)) ∧ (∀ i, i < 64 - n → tail.getLsbD (n + i) = w.getLsbD i)

/-- R65: the ranges of the halves and the exact round trip. -/
def Obligations.SplitRoundTrip : Prop :=
  ∀ (w : Word) (n : Nat), 1 ≤ n → n ≤ 63 →
    ∃ head tail, splitWord w n = some (head, tail) ∧ head.toNat < 2 ^ n ∧ tail.toNat % 2 ^ n = 0 ∧
      ((head <<< (64 - n)) ||| (tail >>> n)) = w ∧ (head <<< (64 - n)) &&& (tail >>> n) = 0 ∧
      (head <<< (64 - n)) + (tail >>> n) = w

/-- R66: the split has no value at 0 or 64; SPLIT at 0 is BAD_ARG; no control word spells a split point of 64; and ADD on a
block that meets the invariant never reaches the undefined cases. -/
def Obligations.UndefinedSplitsGetNoValue : Prop :=
  (∀ w : Word, splitWord w 0 = none ∧ splitWord w 64 = none) ∧
  (∀ (w : Word) (s : State), exec (.split 0 w) s = next (respond .badArg 0 0 0 s)) ∧
  (∀ (c : Command) (n : Nat) (w : Word), decode c = .ok (.split n w) → n ≤ 63) ∧
  (∀ (s : State) (key : Word), Inv s → s.cfg.valid = true →
    (splitWord key (width s)).isSome = true ∧ exec (.add key) s ≠ fault .splitUndefined)

/-- R67: CLZ is the control word 0x0006; it responds OK with the count of leading zeros of `D`, whatever the configuration,
and changes nothing else; with a nonzero immediate or reserved bits it is ILLEGAL. The count is pinned by the word's
bits. -/
def Obligations.ClzCommandResult : Prop :=
  (∀ (word : Word) (s : State), ∃ n : Nat, exec (.clz word) s = next (respond .ok (BitVec.ofNat 64 n) 0 0 s) ∧
    n ≤ 64 ∧ (∀ j, j < n → word.getLsbD (63 - j) = false) ∧ (n < 64 → word.getLsbD (63 - n) = true)) ∧
  (∀ word, decode ⟨0x0006, word⟩ = .ok (.clz word)) ∧
  (∀ (c : Command) (s : State), c.cw.toNat % 16 = 6 → c.cw ≠ 0x0006 →
    performCommand c s = next (respond .illegal 0 0 0 s))

/-- R68: SPLIT is the control word `(n << 4) | 0x7`; it responds BAD_ARG at 0 and otherwise OK with head and tail, whatever
the configuration, and changes nothing else; with reserved bits it is ILLEGAL. Stated for every split point the immediate
holds. -/
def Obligations.SplitCommandResult : Prop :=
  (∀ (n : Nat) (word : Word) (s : State), n ≤ 63 →
    exec (.split n word) s =
      if n = 0 then next (respond .badArg 0 0 0 s)
      else next (respond .ok (BitVec.ofNat 64 (word.toNat / 2 ^ (64 - n)))
        (BitVec.ofNat 64 (word.toNat * 2 ^ n)) 0 s)) ∧
  (∀ (n : Nat) (word : Word), n ≤ 63 → decode ⟨BitVec.ofNat 16 (n * 16 + 7), word⟩ = .ok (.split n word)) ∧
  (∀ (c : Command) (s : State), c.cw.toNat % 16 = 7 → 1024 ≤ c.cw.toNat →
    performCommand c s = next (respond .illegal 0 0 0 s))

/-! ### Construction (41_construction.md) -/

/-- R69: CONFIG is the control word `(W << 4) | 0x1`. On an unconfigured block a width of 8 to 20 answers OK, sets CFG, writes
0 to every cell and leaves everything else but the response port alone; every other width is BAD_WIDTH; on a configured
block every width is ALREADY_CONFIGURED; with reserved bits it is ILLEGAL. -/
def Obligations.ConfigConstructsOrRejects : Prop :=
  (∀ (w : Nat) (s : State), s.cfg.valid = false → 8 ≤ w → w ≤ 20 →
    ∃ u, exec (.config w) s = next (respond .ok 0 0 0 u) ∧ u.cfg.valid = true ∧ u.cfg.w.toNat = w ∧
      (∀ i, u.reg.read i = 0) ∧ u.reg.wf = true ∧ u.inputs = s.inputs ∧ u.rspReady = s.rspReady ∧
      u.rspPort = s.rspPort ∧ u.delivered = s.delivered ∧ u.draw = s.draw) ∧
  (∀ (w : Nat) (s : State), s.cfg.valid = false → (w < 8 ∨ 20 < w) →
    exec (.config w) s = next (respond .badWidth 0 0 0 s)) ∧
  (∀ (w : Nat) (s : State), s.cfg.valid = true → exec (.config w) s = next (respond .alreadyConfigured 0 0 0 s)) ∧
  (∀ (w : Nat) (d : Word), w ≤ 63 → decode ⟨BitVec.ofNat 16 (w * 16 + 1), d⟩ = .ok (.config w)) ∧
  (∀ (c : Command) (s : State), c.cw.toNat % 16 = 1 → 1024 ≤ c.cw.toNat →
    performCommand c s = next (respond .illegal 0 0 0 s))

/-- R70, R107: the width check accepts exactly 8 to 20 and never clamps; every other width is BAD_WIDTH at once, and the
block stays as it was. -/
def Obligations.WidthCheckNeverClamps : Prop :=
  ∀ (w : Nat) (s : State), s.cfg.valid = false →
    ∃ t r, exec (.config w) s = next t ∧ lastResponse t = some r ∧
      (r.status = Status.ok.code ↔ 8 ≤ w ∧ w ≤ 20) ∧ (8 ≤ w ∧ w ≤ 20 → t.cfg.w.toNat = w) ∧
      (w < 8 ∨ 20 < w → t = respond .badWidth 0 0 0 s)

/-- Derived (41_construction.md R71): once configured, no CONFIG succeeds, whatever commands come between, until reset: a
CONFIG after any sequence of commands, illegal ones among them, is ALREADY_CONFIGURED and changes nothing, and CFG is as it
was. The second clause says the same of every sequence of decoded commands. -/
def Obligations.NoSecondConfigUntilReset : Prop :=
  (∀ (w : Nat) (between : List Command) (s t : State), s.cfg.valid = true → performAll between s = next t →
    t.cfg = s.cfg ∧ exec (.config w) t = next (respond .alreadyConfigured 0 0 0 t)) ∧
  (∀ (w : Nat) (between : List Instr) (s t : State), s.cfg.valid = true → execAll between s = next t →
    t.cfg = s.cfg ∧ exec (.config w) t = next (respond .alreadyConfigured 0 0 0 t))

/-- R72: after a CONFIG that fails with BAD_WIDTH, CFG.valid is still 0 and CFG.W still 0, and ADD, READREG and REDUCE are
still rejected with NOT_CONFIGURED. -/
def Obligations.FailedConfigLeavesNoInstance : Prop :=
  ∀ (w : Nat) (s t : State), Inv s → s.cfg.valid = false → (w < 8 ∨ 20 < w) → exec (.config w) s = next t →
    t.cfg.valid = false ∧ t.cfg.w = 0 ∧ ∀ d : Word,
      exec (.add d) t = next (respond .notConfigured 0 0 0 t) ∧
      exec (.readreg d) t = next (respond .notConfigured 0 0 0 t) ∧
      exec .reduce t = next (respond .notConfigured 0 0 0 t)

/-- R73: STATUS is the control word 0x0005; it responds OK with the image of CFG (bits 4:0 CFG.W, bit 8 CFG.valid, every other
bit 0), whatever the configuration, and changes nothing else; with a nonzero immediate or reserved bits it is ILLEGAL. Its
image is 0 on every unconfigured block that meets the invariant, and so at reset. -/
def Obligations.StatusImage : Prop :=
  (∀ s : State, ∃ image : Word, exec .status s = next (respond .ok image 0 0 s) ∧
    image.toNat = s.cfg.w.toNat + (if s.cfg.valid then 256 else 0) ∧
    (∀ i, i < 5 → image.getLsbD i = s.cfg.w.getLsbD i) ∧ (∀ i, 5 ≤ i → i < 8 → image.getLsbD i = false) ∧
    image.getLsbD 8 = s.cfg.valid ∧ ∀ i, 9 ≤ i → image.getLsbD i = false) ∧
  (∀ s : State, Inv s → s.cfg.valid = false → exec .status s = next (respond .ok 0x000 0 0 s)) ∧
  exec .status State.reset = next (respond .ok 0x000 0 0 State.reset) ∧
  (∀ d, decode ⟨0x0005, d⟩ = .ok .status) ∧
  (∀ (c : Command) (s : State), c.cw.toNat % 16 = 5 → c.cw ≠ 0x0005 →
    performCommand c s = next (respond .illegal 0 0 0 s))

/-- R121: after a successful CONFIG of width W every register is 0, and a REDUCE returns `S_fix = 2^(W+63)` and `Z = 2^W`,
from which an exact host computes 0. -/
def Obligations.AfterConstruction : Prop :=
  ∀ (w : Nat) (s : State), s.cfg.valid = false → 8 ≤ w → w ≤ 20 →
    ∃ u, exec (.config w) s = next u ∧ u.cfg.valid = true ∧ u.cfg.w.toNat = w ∧ (∀ i, u.reg.read i = 0) ∧
      exec .reduce u = next (respond .ok (BitVec.ofNat 64 (2 ^ w)) 0 (BitVec.ofNat 84 (2 ^ (w + 63))) u) ∧
      ∀ num : HostNumerics, num.Exact →
        countOfResponse num w ⟨Status.ok.code, BitVec.ofNat 64 (2 ^ w), 0, BitVec.ofNat 84 (2 ^ (w + 63))⟩ = .ok 0

/-! ### The update path (42_add.md) -/

/-- R81, R80: ADD is the control word 0x0002. On a configured block it responds OK and raises the one register its key's top
W bits name (an index below `2^W`) to the rank of its other bits, if that is larger; the rank is 65 - W when the remainder is
0. Every other register, CFG and the inputs stay. On an unconfigured block it is NOT_CONFIGURED; with a nonzero immediate or
reserved bits it is ILLEGAL. -/
def Obligations.AddRaisesOneRegister : Prop :=
  (∀ (key : Word) (s : State), s.reg.wf = true → Configured s →
    key.toNat / 2 ^ (64 - width s) < 2 ^ width s ∧
    ∃ u, exec (.add key) s = next (respond .ok 0 0 0 u) ∧
      (∀ j, (u.reg.read j).toNat =
        if j = key.toNat / 2 ^ (64 - width s) then
          max (s.reg.read j).toNat
            (if key <<< width s = 0 then 65 - width s else clz64 (key <<< width s) + 1)
        else (s.reg.read j).toNat) ∧
      u.cfg = s.cfg ∧ u.inputs = s.inputs ∧ u.rspReady = s.rspReady ∧ u.rspPort = s.rspPort ∧
      u.delivered = s.delivered ∧ u.draw = s.draw) ∧
  (∀ (key : Word) (s : State), s.cfg.valid = false → exec (.add key) s = next (respond .notConfigured 0 0 0 s)) ∧
  (∀ key, decode ⟨0x0002, key⟩ = .ok (.add key)) ∧
  (∀ (c : Command) (s : State), c.cw.toNat % 16 = 2 → c.cw ≠ 0x0002 →
    performCommand c s = next (respond .illegal 0 0 0 s))

/-- R105: ADD, READREG and REDUCE on an unconfigured block are NOT_CONFIGURED, and CONFIG, STATUS, CLZ and SPLIT never
are. -/
def Obligations.NotConfiguredCommands : Prop :=
  (∀ (i : Instr) (s : State), s.cfg.valid = false → needsConfig i = true →
    exec i s = next (respond .notConfigured 0 0 0 s)) ∧
  (∀ (i : Instr) (s t : State) (r : Response), exec i s = next t → lastResponse t = some r →
    r.status = Status.notConfigured.code → needsConfig i = true ∧ s.cfg.valid = false)

/-- R78: the range of the rank at every legal width: at least 1, at most 65 - W, at most 64 - W for a nonzero remainder,
and so within 6 bits. -/
def Obligations.RankRange : Prop :=
  ∀ (key : Word) (w : Nat), 8 ≤ w → w ≤ 20 →
    let rem := key <<< w
    (rem ≠ 0 → clz64 rem ≤ 63 - w ∧ 1 ≤ rank rem w ∧ rank rem w ≤ 64 - w) ∧
    (rem = 0 → rank rem w = 65 - w) ∧ 1 ≤ rank rem w ∧ rank rem w ≤ 65 - w ∧ rank rem w ≤ 57 ∧
    (BitVec.ofNat 6 (rank rem w)).toNat = rank rem w

/-- R79: two other forms of the rank. `f` is the field of `64 - W` bits below the index and `clzBelow` counts the zeros at
its top; and the rank is `min(clz64(rem), 64 - W) + 1`. -/
def Obligations.RankEquivalentForms : Prop :=
  ∀ (key : Word) (w : Nat), 8 ≤ w → w ≤ 20 →
    rank (key <<< w) w = clzBelow key (64 - w) + 1 ∧
    rank (key <<< w) w = min (clz64 (key <<< w)) (64 - w) + 1

/-- R82: on a block just configured with W = 8, `ADD 0` sets `REG[0] = 57` and leaves the other registers 0; the REDUCE that
follows gives an exact host the count 1. -/
def Obligations.AllZeroKeyAtWidthEight : Prop :=
  ∀ s u : State, s.cfg.valid = false → exec (.config 8) s = next u →
    ∃ v, exec (.add 0) u = next v ∧ v.reg.read 0 = 57 ∧ (∀ i, 1 ≤ i → i ≤ 255 → v.reg.read i = 0) ∧
      ∃ r, exec .reduce v = next (offer r v) ∧ r.status = Status.ok.code ∧ r.r0 = 255 ∧
        r.sum = 0x7F8000000000000040 ∧ ∀ num : HostNumerics, num.Exact → countOfResponse num 8 r = .ok 1

/-- R42: a repeated ADD changes nothing more, and after a sequence of ADDs each register is at the largest rank among the
keys that map to it (or where it was, if that is larger), so the array depends neither on their order nor on repetition.
From a block just configured, whose registers are 0, each ends at the largest rank, or at 0. -/
def Obligations.AddsAreOrderIndependentMaxima : Prop :=
  ∀ s : State, Inv s → s.cfg.valid = true →
    (∀ key : Word, ∃ t t', addAll [key] s = next t ∧ addAll [key, key] s = next t' ∧ t'.reg = t.reg) ∧
    (∀ keys : List Word, ∃ t, addAll keys s = next t ∧ t.cfg = s.cfg ∧
      (∀ j, (t.reg.read j).toNat = max (s.reg.read j).toNat (largestRank keys (width s) j)) ∧
      (∀ keys' : List Word, (∀ key, key ∈ keys ↔ key ∈ keys') →
        ∃ t', addAll keys' s = next t' ∧ t'.reg = t.reg ∧ t'.cfg = t.cfg))

/-- R83: READREG is the control word 0x0004. On a configured block: OK with the register's value below `2^W`, BAD_ARG from
there on; on an unconfigured one NOT_CONFIGURED; with a nonzero immediate or reserved bits ILLEGAL. No state changed. -/
def Obligations.ReadregResult : Prop :=
  (∀ (index : Word) (s : State), Configured s →
    (index.toNat < 2 ^ width s →
      ∃ v : Word, exec (.readreg index) s = next (respond .ok v 0 0 s) ∧ v.toNat = (s.reg.read index.toNat).toNat) ∧
    (2 ^ width s ≤ index.toNat → exec (.readreg index) s = next (respond .badArg 0 0 0 s))) ∧
  (∀ (index : Word) (s : State), s.cfg.valid = false →
    exec (.readreg index) s = next (respond .notConfigured 0 0 0 s)) ∧
  (∀ index, decode ⟨0x0004, index⟩ = .ok (.readreg index)) ∧
  (∀ (c : Command) (s : State), c.cw.toNat % 16 = 4 → c.cw ≠ 0x0004 →
    performCommand c s = next (respond .illegal 0 0 0 s))

/-- Derived (42_add.md): a READREG of the register an ADD has just raised sees that ADD's write, and a READREG of any other
register sees what it saw before. -/
def Obligations.ReadregAfterAdd : Prop :=
  ∀ (key index : Word) (s t : State), Inv s → s.cfg.valid = true → exec (.add key) s = next t →
    index.toNat < 2 ^ width s →
      ∃ v : Word, exec (.readreg index) t = next (respond .ok v 0 0 t) ∧
        v.toNat = if index = key >>> (64 - width s) then max (s.reg.read index.toNat).toNat (keyRank key (width s))
          else (s.reg.read index.toNat).toNat

/-! ### The reduction path (43_count.md) -/

/-- R84: the lookup table. -/
def Obligations.LookupTable : Prop :=
  (∀ b : Byte, b.toNat ≤ 63 → (lut b).toNat = 2 ^ (63 - b.toNat)) ∧ (∀ b : Byte, 64 ≤ b.toNat → lut b = 0)

/-- R85: the table's input is the register with two zero bits on top, so at most 63, and at most 65 - W by the invariant;
and a table that differs only from entry 64 on gives the same sum. -/
def Obligations.TableInputsStayBelowSixtyFour : Prop :=
  (∀ v : RegVal, (tableInput v).toNat = v.toNat ∧ (tableInput v).toNat ≤ 63) ∧
  (∀ s : State, Inv s → s.cfg.valid = true → ∀ i, i < numRegs s → (tableInput (s.reg.read i)).toNat ≤ 65 - width s) ∧
  (∀ (other : Byte → Word) (r : Memory) (m : Nat), (∀ b : Byte, b.toNat ≤ 63 → other b = lut b) →
    ((List.range m).map fun i => (other (tableInput (r.read i))).toNat).sum = harmonicSum r m)

/-- R86: the sum is the exact sum of `2^(63 - REG[i])` over the first m registers, `S_fix / 2^63` is `Σ 2^(-REG[i])`
exactly, and it fits in 84 bits with room to spare: at most `2^83` at every legal width. -/
def Obligations.HarmonicSumIsExact : Prop :=
  ∀ r : Memory,
    (∀ m, harmonicSum r m = ∑ i ∈ Finset.range m, 2 ^ (63 - (r.read i).toNat)) ∧
    (∀ m, (harmonicSum r m : ℚ) / 2 ^ 63 = ∑ i ∈ Finset.range m, 1 / (2 : ℚ) ^ (r.read i).toNat) ∧
    (∀ w, w ≤ 20 → harmonicSum r (2 ^ w) ≤ 2 ^ 83 ∧
      (BitVec.ofNat 84 (harmonicSum r (2 ^ w))).toNat = harmonicSum r (2 ^ w))

/-- R87: every reduction tree over the m registers, in any order of pairing, computes `S_fix`. -/
def Obligations.TreeShapeIsNotObservable : Prop :=
  ∀ (r : Memory) (m : Nat) (tree : AdderTree), tree.inputs.Perm (List.range m) → tree.total r = harmonicSum r m

/-- R88: the bounds of `S_fix` while configured. -/
def Obligations.HarmonicSumBounds : Prop :=
  ∀ s : State, Inv s → s.cfg.valid = true →
    2 ^ (2 * width s - 2) ≤ harmonicSum s.reg (numRegs s) ∧ harmonicSum s.reg (numRegs s) ≤ 2 ^ (width s + 63) ∧
    ((∀ i, i < numRegs s → s.reg.read i = 0) → harmonicSum s.reg (numRegs s) = 2 ^ (width s + 63)) ∧
    ((∀ i, i < numRegs s → (s.reg.read i).toNat = 65 - width s) →
      harmonicSum s.reg (numRegs s) = 2 ^ (2 * width s - 2)) ∧
    0 < harmonicSum s.reg (numRegs s)

/-- R89: the zero count is the number of registers below m still at 0, in [0, m] and within 21 bits; and it is the number of
table outputs equal to `2^63`. -/
def Obligations.ZeroCountCountsZeroRegisters : Prop :=
  ∀ (r : Memory) (m : Nat),
    zeroCount r m = ((Finset.range m).filter fun i => r.read i = 0).card ∧ zeroCount r m ≤ m ∧
    (m ≤ 2 ^ 20 → zeroCount r m < 2 ^ 21) ∧
    zeroCount r m = (((List.range m).map fun i => lut (tableInput (r.read i))).filter fun x => x = 0x8000000000000000).length

/-- R91: REDUCE is the control word 0x0003. On a configured block it responds OK with the zero count in `r0` and the exact sum
in `sum`; on an unconfigured one NOT_CONFIGURED; with a nonzero immediate or reserved bits ILLEGAL. No state changed. -/
def Obligations.ReduceResult : Prop :=
  (∀ s : State, Configured s →
    ∃ (z : Word) (x : FixSum), exec .reduce s = next (respond .ok z 0 x s) ∧
      z.toNat = ((Finset.range (2 ^ width s)).filter fun i => s.reg.read i = 0).card ∧
      x.toNat = ∑ i ∈ Finset.range (2 ^ width s), 2 ^ (63 - (s.reg.read i).toNat)) ∧
  (∀ s : State, s.cfg.valid = false → exec .reduce s = next (respond .notConfigured 0 0 0 s)) ∧
  (∀ d, decode ⟨0x0003, d⟩ = .ok .reduce) ∧
  (∀ (c : Command) (s : State), c.cw.toNat % 16 = 3 → c.cw ≠ 0x0003 →
    performCommand c s = next (respond .illegal 0 0 0 s))

/-- R41: reads have no side effects: a READREG or a REDUCE changes neither CFG nor REG; and two REDUCEs with no ADD or CONFIG
between them, whatever other commands are, illegal ones among them, return the same response. The last clause says the same of
decoded commands between. -/
def Obligations.ReadsHaveNoSideEffects : Prop :=
  (∀ s t : State, (∃ index, exec (.readreg index) s = next t) ∨ exec .reduce s = next t → t.cfg = s.cfg ∧ t.reg = s.reg) ∧
  (∀ (between : List Command) (s t u v : State),
    (∀ c, c ∈ between → (∀ key, decode c ≠ .ok (.add key)) ∧ ∀ w, decode c ≠ .ok (.config w)) →
    exec .reduce s = next t → performAll between t = next u → exec .reduce u = next v →
      lastResponse v = lastResponse t) ∧
  (∀ (between : List Instr) (s t u v : State),
    (∀ i, i ∈ between → (∀ key, i ≠ .add key) ∧ ∀ w, i ≠ .config w) →
    exec .reduce s = next t → execAll between t = next u → exec .reduce u = next v →
      lastResponse v = lastResponse t)

/-! ### The host-side estimate (43_count.md; not hardware) -/

/-- R92 to R95, R98: the whole reference function over exact reals, at every legal width and for every response a REDUCE
can give: linear counting when `E < 2.5 m` and some register is 0, else `floor(E)`; `2^64` or more is the fault
EstimateOverflow and no value. -/
def Obligations.EstimateOverExactReals : Prop :=
  ∀ (num : HostNumerics) (w sfix z : Nat), num.Exact → 8 ≤ w → w ≤ 20 → 0 < sfix → z ≤ 2 ^ w →
    let m : ℝ := 2 ^ w
    let E : ℝ := 0.7213 / (1 + 1.079 / m) * m ^ 2 * (2 ^ 63 / sfix)
    ∃ c : Nat,
      (E < 2.5 * m ∧ 0 < z → c = ⌊m * Real.log (m / z)⌋₊) ∧ (¬(E < 2.5 * m ∧ 0 < z) → c = ⌊E⌋₊) ∧
      (c < 2 ^ 64 → ∃ value : Word, count num w sfix z = .ok value ∧ value.toNat = c) ∧
      (2 ^ 64 ≤ c → count num w sfix z = .error .estimateOverflow)

/-- R98: an estimate of `2^64` or more is the fault EstimateOverflow and never a value, neither wrapped nor saturated: a value
returned is the estimate itself. Its example: at W = 8 with every register at 57, `floor(E)` is 26499581405668102743, and the
estimate is the fault. -/
def Obligations.EstimateOverflowIsNeverAValue : Prop :=
  (∀ (num : HostNumerics) (w sfix z : Nat),
    (2 ^ 64 ≤ estimateValue num w sfix z ↔ count num w sfix z = .error .estimateOverflow) ∧
    ∀ value, count num w sfix z = .ok value → value.toNat = estimateValue num w sfix z) ∧
  (∀ (num : HostNumerics) (s : State), num.Exact → s.cfg.valid = true → width s = 8 →
    (∀ i, i < 256 → s.reg.read i = 57) →
    num.floorRaw 256 (harmonicSum s.reg 256) = 26499581405668102743 ∧
    ∃ r, exec .reduce s = next (offer r s) ∧ countOfResponse num 8 r = .error .estimateOverflow)

/-- R96: before any ADD the estimate is 0: after a successful CONFIG and any commands but ADD, illegal ones among them, all of
which complete, a REDUCE gives an exact host 0. The second clause is the derivation R97 gives: the real values
floored are not negative. -/
def Obligations.EstimateBeforeAnyAddIsZero : Prop :=
  (∀ (num : HostNumerics) (w : Nat) (s u : State), num.Exact → 8 ≤ w → w ≤ 20 → s.cfg.valid = false →
    exec (.config w) s = next u →
      ∀ between : List Command, (∀ c, c ∈ between → ∀ key, decode c ≠ .ok (.add key)) →
        ∃ v r, performAll between u = next v ∧ exec .reduce v = next (offer r v) ∧ countOfResponse num w r = .ok 0) ∧
  (∀ m sfix z : Nat, 0 < m → 0 < sfix → 1 ≤ z → z ≤ m → 0 < rawEstimate m sfix ∧ 0 ≤ (m : ℝ) * Real.log (m / z))

/-! ### Status, rejections, priority (60_exceptions.md) -/

/-- R103: the six codes are 0 to 5 as the table has them, and no command, legal or not, ever produces 6 or 7. -/
def Obligations.StatusCodes : Prop :=
  Status.ok.code = 0 ∧ Status.illegal.code = 1 ∧ Status.notConfigured.code = 2 ∧ Status.alreadyConfigured.code = 3 ∧
    Status.badWidth.code = 4 ∧ Status.badArg.code = 5 ∧
  ∀ (c : Command) (s t : State) (r : Response), performCommand c s = next t → lastResponse t = some r →
    r.status ≠ 6 ∧ r.status ≠ 7 ∧
    (r.status = 1 → ∃ e, decode c = .error e) ∧
    (r.status = 2 → ∃ d, decode c = .ok (.add d) ∨ decode c = .ok (.readreg d) ∨ decode c = .ok .reduce) ∧
    (r.status = 3 → ∃ w, decode c = .ok (.config w)) ∧ (r.status = 4 → ∃ w, decode c = .ok (.config w)) ∧
    (r.status = 5 → ∃ n d, decode c = .ok (.readreg d) ∨ decode c = .ok (.split n d))

/-- R109: a command whose status is not OK changes no state, and every result word of its response is 0: the state after is
the state before with that response offered. -/
def Obligations.RejectedCommandChangesNothing : Prop :=
  ∀ (c : Command) (s t : State) (r : Response), performCommand c s = next t → lastResponse t = some r →
    r.status ≠ Status.ok.code →
      r.r0 = 0 ∧ r.r1 = 0 ∧ r.sum = 0 ∧ t = offer r s ∧ t.cfg = s.cfg ∧ t.reg = s.reg

/-- R110: when several causes apply, the one reported is the first of: decoding, configuration state, operand value. With
the rule's three examples. -/
def Obligations.PriorityOfRejections : Prop :=
  (∀ (c : Command) (s : State), Inv s →
    ∃ t r, performCommand c s = next t ∧ lastResponse t = some r ∧ r.status = (expectedStatus c s).code) ∧
  (∀ (s : State) (d : Word), s.cfg.valid = false →
    performCommand ⟨0x0012, d⟩ s = next (respond .illegal 0 0 0 s) ∧
    performCommand ⟨0x0004, 300⟩ s = next (respond .notConfigured 0 0 0 s)) ∧
  (∀ (s : State) (d : Word), s.cfg.valid = true →
    performCommand ⟨0x0071, d⟩ s = next (respond .alreadyConfigured 0 0 0 s))

/-- R111: once configured, ADD and REDUCE with legal encodings always respond OK. -/
def Obligations.ConfiguredAddAndReduceNeverFail : Prop :=
  ∀ s : State, Inv s → s.cfg.valid = true → ∀ i : Instr, (∃ key, i = .add key) ∨ i = .reduce →
    ∃ t r, exec i s = next t ∧ lastResponse t = some r ∧ r.status = Status.ok.code

/-- Derived (60_exceptions.md R114): a rejected command sent again unchanged is rejected again with the same status. -/
def Obligations.RejectionIsRepeatable : Prop :=
  ∀ (c : Command) (s t : State) (r : Response), performCommand c s = next t → lastResponse t = some r →
    r.status ≠ Status.ok.code → ∃ u, performCommand c t = next u ∧ lastResponse u = some r

/-! ### Frames -/

/-- Derived (10_state.md, 42_add.md, 43_count.md): READREG, REDUCE, STATUS, CLZ and SPLIT, in every form and with every
status, write nothing: CFG, every register cell, the inputs, the ready level and the reset count are unchanged, and of the
responses at most one is added. -/
def Obligations.ReadOnlyCommandsFrame : Prop :=
  ∀ (i : Instr) (s t : State),
    ((∃ index, i = .readreg index) ∨ i = .reduce ∨ i = .status ∨ (∃ word, i = .clz word) ∨ ∃ n word, i = .split n word) →
    exec i s = next t →
      t.cfg = s.cfg ∧ (∀ j, t.reg.read j = s.reg.read j) ∧ t.reg = s.reg ∧ t.inputs = s.inputs ∧
        t.rspReady = s.rspReady ∧ t.draw = s.draw ∧ ∃ r, t = offer r s

/-- Derived (42_add.md): ADD, in every form and with every status, changes no cell but the one its key's index names (on a
configured block; none at all when rejected), not CFG, not the inputs, the ready level or the reset count. -/
def Obligations.AddFrame : Prop :=
  ∀ (key : Word) (s t : State), s.reg.wf = true → exec (.add key) s = next t →
    t.cfg = s.cfg ∧ (∀ j, j ≠ (key >>> (64 - width s)).toNat → t.reg.read j = s.reg.read j) ∧
      (s.cfg.valid = false → t.reg = s.reg) ∧ t.inputs = s.inputs ∧ t.rspReady = s.rspReady ∧ t.draw = s.draw

/-- Derived (41_construction.md): CONFIG, in every form and with every status, leaves the inputs, the ready level and the
reset count alone; when it is rejected it changes neither CFG nor any cell; when it succeeds it writes all of both. -/
def Obligations.ConfigFrame : Prop :=
  ∀ (w : Nat) (s t : State), exec (.config w) s = next t →
    t.inputs = s.inputs ∧ t.rspReady = s.rspReady ∧ t.draw = s.draw ∧
    (s.cfg.valid = true ∨ w < 8 ∨ 20 < w → t.cfg = s.cfg ∧ t.reg = s.reg) ∧
    (s.cfg.valid = false → 8 ≤ w → w ≤ 20 → t.cfg = ⟨true, BitVec.ofNat 5 w⟩ ∧ ∀ j, t.reg.read j = 0)

/-- R22: only a successful CONFIG and a successful ADD write REG; the first writes 0 to every cell, the second at most the
one its key names, with the larger of its value and the rank. CLZ, SPLIT and STATUS do not read it either: their response is
the same whatever the array holds. -/
def Obligations.OnlyConfigAndAddWriteRegisters : Prop :=
  (∀ (i : Instr) (s t : State), Inv s → exec i s = next t → t.reg ≠ s.reg →
    (∃ w, i = .config w ∧ s.cfg.valid = false ∧ 8 ≤ w ∧ w ≤ 20 ∧ ∀ j, t.reg.read j = 0) ∨
    (∃ key, i = .add key ∧ s.cfg.valid = true ∧
      ∀ j, (t.reg.read j).toNat = if j = (key >>> (64 - width s)).toNat
        then max (s.reg.read j).toNat (keyRank key (width s)) else (s.reg.read j).toNat)) ∧
  (∀ (i : Instr) (s : State) (other : Memory),
    i = .status ∨ (∃ word, i = .clz word) ∨ (∃ n word, i = .split n word) →
      ∃ t t', exec i s = next t ∧ exec i { s with reg := other } = next t' ∧ t' = { t with reg := other })

/-! ### The whole machine -/

/-- Derived (10_state.md): the invariant (R20, R24, R25, R30, R103, R109 and the array's canonical form) holds at reset. -/
def Obligations.InvariantAtReset : Prop := Inv State.reset

/-- Derived (10_state.md R20, R24, R25): from every state that meets the invariant, a step never stops, and the state after
it meets the invariant. -/
def Obligations.StepKeepsTheInvariant : Prop :=
  ∀ s : State, Inv s → ∃ t, step s = next t ∧ Inv t

/-- R23: between a CONFIG and the next reset no step lowers a register; and none clears CFG.valid or changes CFG.W. -/
def Obligations.ConfiguredStepsAreMonotone : Prop :=
  ∀ s t : State, Inv s → s.cfg.valid = true → ¬ResetNext s → step s = next t →
    t.cfg = s.cfg ∧ ∀ j, (s.reg.read j).toNat ≤ (t.reg.read j).toNat

/-- R19: CFG.valid is set by a successful CONFIG only, and cleared by reset only; while it is 0, ADD, READREG and REDUCE
are NOT_CONFIGURED. -/
def Obligations.WhatChangesConfiguration : Prop :=
  (∀ s t : State, step s = next t → s.cfg.valid = false → t.cfg.valid = true →
    ∃ c rest w, s.inputs = .command c :: rest ∧ s.rspPort = none ∧ decode c = .ok (.config w) ∧ 8 ≤ w ∧ w ≤ 20) ∧
  (∀ s t : State, step s = next t → s.cfg.valid = true → t.cfg.valid = false → ResetNext s) ∧
  (∀ s : State, ResetNext s → ∃ t, step s = next t ∧ t.cfg.valid = false) ∧
  (∀ (s : State) (d : Word), s.cfg.valid = false →
    exec (.add d) s = next (respond .notConfigured 0 0 0 s) ∧
    exec (.readreg d) s = next (respond .notConfigured 0 0 0 s) ∧ exec .reduce s = next (respond .notConfigured 0 0 0 s))

/-- Derived (10_state.md, 70_reset_and_hazards.md): R30's "unspecified register contents are never observable" and R25's
cells at or above m. Two states a host cannot tell apart, whatever the array holds in the cells it may not read, step to two
states it cannot tell apart. -/
def Obligations.UnspecifiedCellsAreUnobservable : Prop :=
  ∀ s t : State, Inv s → Inv t → SameToHost s t →
    ∃ s' t', step s = next s' ∧ step t = next t' ∧ SameToHost s' t'

/-- Derived (20_memory.md R43; 70_reset_and_hazards.md R124): a host that keeps taking responses and offers n commands gets,
after n steps, exactly n responses, in the order of the commands; each command is performed on the state the ones before it
left. That a response is delivered in the very step that produces it, and so the port is free after the n steps, is the
model's choice, log 3. -/
def Obligations.OneResponsePerCommandInOrder : Prop :=
  ∀ (cmds : List Command) (s : State), Inv s → s.rspReady = true → s.inputs = cmds.map .command →
    ∃ t responses, runSteps cmds.length s = next t ∧ t.inputs = [] ∧ t.rspPort = none ∧
      t.delivered = s.delivered ++ responses ∧ responses.length = cmds.length ∧
      ∀ k (hk : k < cmds.length), ∃ u v, runSteps k s = next u ∧
        performCommand cmds[k] { u with inputs := (cmds.drop (k + 1)).map .command } = next v ∧
        lastResponse v = responses[k]?
end

