-- ==== Sys2Proof/Laws/BitUtil.lean ====
section
/-! SUPPORT. The leading-zero scan and the split, once and for all: what each answers. -/

namespace Sys2Proof.Machine

theorem clzBelow_le (w : Word) (k : Nat) : clzBelow w k ≤ k := by
  induction k with
  | zero => exact Nat.le_refl 0
  | succ k ih => simp only [clzBelow]; split <;> omega

/-- All that the scan says: the bits it counted are 0, and it stopped at the bottom or at a 1. -/
theorem clzBelow_spec (w : Word) (k : Nat) :
    (∀ j, j < clzBelow w k → w.getLsbD (k - 1 - j) = false) ∧
      (clzBelow w k < k → w.getLsbD (k - 1 - clzBelow w k) = true) := by
  induction k with
  | zero => exact ⟨fun j h => absurd h (Nat.not_lt_zero j), fun h => absurd h (Nat.lt_irrefl 0)⟩
  | succ k ih =>
    simp only [clzBelow]
    split
    · next h => exact ⟨fun j hj => absurd hj (Nat.not_lt_zero j), fun _ => h⟩
    · next h =>
      refine ⟨fun j hj => ?_, fun hlt => ?_⟩
      · cases j with
        | zero => simpa using h
        | succ j =>
          have := ih.1 j (by omega)
          rwa [show k + 1 - 1 - (j + 1) = k - 1 - j by omega]
      · have := ih.2 (by omega)
        rwa [show k + 1 - 1 - (clzBelow w k + 1) = k - 1 - clzBelow w k by omega]

/-- The scan is the one number its spec allows. -/
theorem clzBelow_unique {w : Word} {k n : Nat} (hn : n ≤ k) (hz : ∀ j, j < n → w.getLsbD (k - 1 - j) = false)
    (hs : n < k → w.getLsbD (k - 1 - n) = true) : clzBelow w k = n := by
  obtain ⟨h1, h2⟩ := clzBelow_spec w k
  have hle := clzBelow_le w k
  rcases Nat.lt_trichotomy (clzBelow w k) n with h | h | h
  · have := h2 (by omega); rw [hz _ h] at this; cases this
  · exact h
  · have := hs (by omega); rw [h1 _ h] at this; cases this

/-- Where the split is defined. -/
theorem splitWord_eq (w : Word) {n : Nat} (h1 : 1 ≤ n) (h2 : n ≤ 63) :
    splitWord w n = some (w >>> (64 - n), w <<< n) := by
  simp [splitWord, h1, h2]

/-- Where it has no value (R66). -/
theorem splitWord_eq_none (w : Word) {n : Nat} (h : n = 0 ∨ 64 ≤ n) : splitWord w n = none := by
  unfold splitWord; rw [if_neg (by omega)]

/-- A head of `n` bits is below `2^n`. -/
theorem head_lt (w : Word) {n : Nat} (hn : n ≤ 64) : (w >>> (64 - n)).toNat < 2 ^ n := by
  rw [BitVec.toNat_ushiftRight, Nat.shiftRight_eq_div_pow]
  apply Nat.div_lt_of_lt_mul
  rw [← Nat.pow_add, show 64 - n + n = 64 by omega]
  exact w.isLt

end Sys2Proof.Machine
end

