-- ==== Sys2Proof/Laws/Decode.lean ====
section
/-! SUPPORT. The fields of a control word as numbers, and the fields of an encoded command. -/

namespace Sys2Proof

theorem opField_eq (cw : CtrlWord) : opField cw = cw.toNat % 16 := by
  simp [opField, BitVec.extractLsb'_toNat]

theorem immField_eq (cw : CtrlWord) : immField cw = cw.toNat / 16 % 64 := by
  simp [immField, BitVec.extractLsb'_toNat, Nat.shiftRight_eq_div_pow]

theorem rsvField_eq (cw : CtrlWord) : rsvField cw = cw.toNat / 1024 := by
  have := cw.isLt
  simp only [rsvField, BitVec.extractLsb'_toNat, Nat.shiftRight_eq_div_pow]
  omega

theorem immField_le (cw : CtrlWord) : immField cw ≤ 63 := by
  rw [immField_eq]; omega

theorem opField_lt (cw : CtrlWord) : opField cw < 16 := by
  rw [opField_eq]; omega

/-- What decoding a command that takes no immediate can answer. -/
theorem withoutImmediate_cases (cw : CtrlWord) (i : Instr) :
    immField cw = 0 ∧ withoutImmediate cw i = .ok i ∨
      immField cw ≠ 0 ∧ withoutImmediate cw i = .error .immediateNotZero := by
  unfold withoutImmediate
  by_cases h : immField cw = 0
  · exact .inl ⟨h, if_pos h⟩
  · exact .inr ⟨h, if_neg h⟩

/-- Everything the decoder can answer, by the fields of the control word: the seven commands, then the three causes of an
illegal one (R54). -/
theorem decode_cases (c : Command) :
    rsvField c.cw = 0 ∧
        (opField c.cw = 1 ∧ decode c = .ok (.config (immField c.cw)) ∨
          opField c.cw = 7 ∧ decode c = .ok (.split (immField c.cw) c.d) ∨
          immField c.cw = 0 ∧
            (opField c.cw = 2 ∧ decode c = .ok (.add c.d) ∨
              opField c.cw = 3 ∧ decode c = .ok .reduce ∨
              opField c.cw = 4 ∧ decode c = .ok (.readreg c.d) ∨
              opField c.cw = 5 ∧ decode c = .ok .status ∨
              opField c.cw = 6 ∧ decode c = .ok (.clz c.d)) ∨
          immField c.cw ≠ 0 ∧ 2 ≤ opField c.cw ∧ opField c.cw ≤ 6 ∧ decode c = .error .immediateNotZero ∨
          (opField c.cw = 0 ∨ 8 ≤ opField c.cw) ∧ decode c = .error .reservedOpcode) ∨
      rsvField c.cw ≠ 0 ∧ decode c = .error .reservedBits := by
  unfold decode
  by_cases hr : rsvField c.cw = 0
  · refine .inl ⟨hr, ?_⟩
    rw [if_neg (not_not.2 hr)]
    have hw := withoutImmediate_cases c.cw
    split
    · next h => exact .inl ⟨h, rfl⟩
    · next h => exact .inr (.inl ⟨h, rfl⟩)
    · next h => rcases hw (.add c.d) with ⟨hi, e⟩ | ⟨hi, e⟩ <;> simp [h, hi, e]
    · next h => rcases hw .reduce with ⟨hi, e⟩ | ⟨hi, e⟩ <;> simp [h, hi, e]
    · next h => rcases hw (.readreg c.d) with ⟨hi, e⟩ | ⟨hi, e⟩ <;> simp [h, hi, e]
    · next h => rcases hw .status with ⟨hi, e⟩ | ⟨hi, e⟩ <;> simp [h, hi, e]
    · next h => rcases hw (.clz c.d) with ⟨hi, e⟩ | ⟨hi, e⟩ <;> simp [h, hi, e]
    · next h1 h7 h2 h3 h4 h5 h6 =>
      have hlt := opField_lt c.cw
      simp only [imp_false] at h1 h2 h3 h4 h5 h6 h7
      exact .inr (.inr (.inr (.inr ⟨by omega, rfl⟩)))
  · exact .inr ⟨hr, if_pos hr⟩

/-- The control word of an encoded command, as a number: `16 · imm6 + op`. -/
theorem encode_cw_toNat (i : Instr) : (encode i).cw.toNat = 16 * i.imm6.toNat + i.opcode.toNat := by
  have h1 := i.imm6.isLt
  have h2 := i.opcode.isLt
  simp only [encode, BitVec.toNat_append]
  rw [Nat.shiftLeft_eq, Nat.mul_comm, ← Nat.two_pow_add_eq_or_of_lt h2]
  simp

end Sys2Proof
end

