-- ==== Sys2Proof/Laws/Estimate.lean ====
section
/-! SUPPORT. The reference arithmetic exists, and any two exact hosts agree. -/

namespace Sys2Proof.Machine

theorem biasConstant_pos {m : Nat} (hm : 0 < m) : 0 < biasConstant m := by
  unfold biasConstant; positivity

theorem rawEstimate_nonneg (m sfix : Nat) : 0 ≤ rawEstimate m sfix := by
  unfold rawEstimate biasConstant harmonicMean; positivity

/-- A host whose logarithm is the real one, exact in its rational results: so the premise `Exact` is met. -/
theorem exact_numerics_exist : ∃ num : HostNumerics, num.Exact := by
  refine ⟨rationalNumerics fun m z => ⌊(m : ℝ) * Real.log (m / z)⌋₊, fun m sfix z _ _ hz hm => ⟨?_, ?_, ?_⟩⟩
  · simp [rationalNumerics]
  · have hf : 0 ≤ ⌊rawEstimate m sfix⌋ := Int.floor_nonneg.2 (rawEstimate_nonneg m sfix)
    have hc : ((⌊rawEstimate m sfix⌋.toNat : Nat) : ℚ) = ((⌊rawEstimate m sfix⌋ : Int) : ℚ) := by
      exact_mod_cast congrArg (Int.cast : Int → ℚ) (Int.toNat_of_nonneg hf)
    change ((⌊rawEstimate m sfix⌋.toNat : Nat) : ℚ) ≤ _ ∧ _ < ((⌊rawEstimate m sfix⌋.toNat : Nat) : ℚ) + 1
    rw [hc]
    exact ⟨Int.floor_le _, Int.lt_floor_add_one _⟩
  · have hz' : (0 : ℝ) < z := by exact_mod_cast hz
    have hle : (1 : ℝ) ≤ m / z := by rw [le_div_iff₀ hz', one_mul]; exact_mod_cast hm
    have hn : 0 ≤ (m : ℝ) * Real.log (m / z) := mul_nonneg (Nat.cast_nonneg m) (Real.log_nonneg hle)
    exact ⟨Nat.floor_le hn, Nat.lt_floor_add_one _⟩

/-- The floor of the logarithm is one number: its bracket pins it. -/
theorem linearCount_unique {m z c d : Nat} (hc : IsLinearCount m z c) (hd : IsLinearCount m z d) : c = d := by
  have h1 : (c : ℝ) < d + 1 := lt_of_le_of_lt hc.1 hd.2
  have h2 : (d : ℝ) < c + 1 := lt_of_le_of_lt hd.1 hc.2
  have h1' : c < d + 1 := by exact_mod_cast h1
  have h2' : d < c + 1 := by exact_mod_cast h2
  omega

end Sys2Proof.Machine
end

