-- ==== Sys2Proof/Laws/State.lean ====
section
/-! SUPPORT. What each shared operation over the state does to each field, and what a response does as a whole. -/

namespace Sys2Proof.Machine

variable (s : State)

@[simp] theorem deliver_cfg : (deliver s).cfg = s.cfg := by unfold deliver; split <;> rfl
@[simp] theorem deliver_reg : (deliver s).reg = s.reg := by unfold deliver; split <;> rfl
@[simp] theorem deliver_inputs : (deliver s).inputs = s.inputs := by unfold deliver; split <;> rfl
@[simp] theorem deliver_rspReady : (deliver s).rspReady = s.rspReady := by unfold deliver; split <;> rfl
@[simp] theorem deliver_draw : (deliver s).draw = s.draw := by unfold deliver; split <;> rfl

/-- With nothing at the response port there is nothing to deliver. -/
theorem deliver_of_none (h : s.rspPort = none) : deliver s = s := by
  unfold deliver; simp [h]

/-- With `rsp_ready` at 0 nothing is delivered. -/
theorem deliver_of_held (h : s.rspReady = false) : deliver s = s := by
  unfold deliver; simp [h]

/-- With `rsp_ready` at 1 the response offered is delivered, after those delivered before. -/
theorem deliver_of_ready {r : Response} (h : s.rspReady = true) (hr : s.rspPort = some r) :
    deliver s = { s with rspPort := none, delivered := s.delivered ++ [r] } := by
  unfold deliver; simp [h, hr]

/-- All that delivering can do. -/
theorem deliver_cases :
    deliver s = s ∧ (s.rspReady = false ∨ s.rspPort = none) ∨
      ∃ r, s.rspReady = true ∧ s.rspPort = some r ∧
        deliver s = { s with rspPort := none, delivered := s.delivered ++ [r] } := by
  cases hp : s.rspPort with
  | none => exact .inl ⟨deliver_of_none s hp, .inr rfl⟩
  | some r =>
    cases hr : s.rspReady with
    | false => exact .inl ⟨deliver_of_held s hr, .inl rfl⟩
    | true => exact .inr ⟨r, rfl, rfl, hr ▸ deliver_of_ready s hr hp⟩

variable (r : Response) (st : Status) (a b : Word) (x : FixSum)

@[simp] theorem offer_cfg : (offer r s).cfg = s.cfg := by simp [offer]
@[simp] theorem offer_reg : (offer r s).reg = s.reg := by simp [offer]
@[simp] theorem offer_inputs : (offer r s).inputs = s.inputs := by simp [offer]
@[simp] theorem offer_rspReady : (offer r s).rspReady = s.rspReady := by simp [offer]
@[simp] theorem offer_draw : (offer r s).draw = s.draw := by simp [offer]

@[simp] theorem respond_cfg : (respond st a b x s).cfg = s.cfg := by simp [respond]
@[simp] theorem respond_reg : (respond st a b x s).reg = s.reg := by simp [respond]
@[simp] theorem respond_inputs : (respond st a b x s).inputs = s.inputs := by simp [respond]
@[simp] theorem respond_rspReady : (respond st a b x s).rspReady = s.rspReady := by simp [respond]
@[simp] theorem respond_draw : (respond st a b x s).draw = s.draw := by simp [respond]

@[simp] theorem reject_cfg : (reject st s).cfg = s.cfg := by simp [reject]
@[simp] theorem reject_reg : (reject st s).reg = s.reg := by simp [reject]
@[simp] theorem reject_inputs : (reject st s).inputs = s.inputs := by simp [reject]
@[simp] theorem reject_rspReady : (reject st s).rspReady = s.rspReady := by simp [reject]
@[simp] theorem reject_draw : (reject st s).draw = s.draw := by simp [reject]

/-- Offered to a host that takes responses, a record is delivered. -/
theorem offer_of_ready (h : s.rspReady = true) :
    offer r s = { s with rspPort := none, delivered := s.delivered ++ [r] } := by
  exact deliver_of_ready { s with rspPort := some r } h rfl

/-- Offered to a host that does not take responses, a record waits at the port. -/
theorem offer_of_held (h : s.rspReady = false) : offer r s = { s with rspPort := some r } := by
  exact deliver_of_held { s with rspPort := some r } h

@[simp] theorem lastResponse_offer : lastResponse (offer r s) = some r := by
  cases h : s.rspReady
  · rw [offer_of_held _ _ h]; simp [lastResponse, h]
  · rw [offer_of_ready _ _ h]; simp [lastResponse, h]

@[simp] theorem lastResponse_respond : lastResponse (respond st a b x s) = some ⟨st.code, a, b, x⟩ := by
  simp [respond]

@[simp] theorem lastResponse_reject : lastResponse (reject st s) = some ⟨st.code, 0, 0, 0⟩ := by
  simp [reject]

variable (i w : Nat) (v : RegVal)

@[simp] theorem writeCell_cfg : (writeCell s i v).cfg = s.cfg := rfl
@[simp] theorem writeCell_reg : (writeCell s i v).reg = s.reg.write i v := rfl
@[simp] theorem writeCell_inputs : (writeCell s i v).inputs = s.inputs := rfl
@[simp] theorem writeCell_rspReady : (writeCell s i v).rspReady = s.rspReady := rfl
@[simp] theorem writeCell_rspPort : (writeCell s i v).rspPort = s.rspPort := rfl
@[simp] theorem writeCell_delivered : (writeCell s i v).delivered = s.delivered := rfl
@[simp] theorem writeCell_draw : (writeCell s i v).draw = s.draw := rfl

@[simp] theorem construct_cfg : (construct w s).cfg = ⟨true, BitVec.ofNat 5 w⟩ := rfl
@[simp] theorem construct_reg : (construct w s).reg = Memory.cleared := rfl
@[simp] theorem construct_inputs : (construct w s).inputs = s.inputs := rfl
@[simp] theorem construct_rspReady : (construct w s).rspReady = s.rspReady := rfl
@[simp] theorem construct_rspPort : (construct w s).rspPort = s.rspPort := rfl
@[simp] theorem construct_delivered : (construct w s).delivered = s.delivered := rfl
@[simp] theorem construct_draw : (construct w s).draw = s.draw := rfl

@[simp] theorem applyReset_cfg : (applyReset s).cfg = ⟨false, 0⟩ := rfl
@[simp] theorem applyReset_reg : (applyReset s).reg = ⟨.unspecified s.draw, []⟩ := rfl
@[simp] theorem applyReset_inputs : (applyReset s).inputs = s.inputs := rfl
@[simp] theorem applyReset_rspReady : (applyReset s).rspReady = s.rspReady := rfl
@[simp] theorem applyReset_rspPort : (applyReset s).rspPort = none := rfl
@[simp] theorem applyReset_delivered : (applyReset s).delivered = s.delivered := rfl
@[simp] theorem applyReset_draw : (applyReset s).draw = s.draw + 1 := rfl

variable (level : Bool)

@[simp] theorem setRspReady_cfg : (setRspReady level s).cfg = s.cfg := by simp [setRspReady]
@[simp] theorem setRspReady_reg : (setRspReady level s).reg = s.reg := by simp [setRspReady]
@[simp] theorem setRspReady_inputs : (setRspReady level s).inputs = s.inputs := by simp [setRspReady]
@[simp] theorem setRspReady_rspReady : (setRspReady level s).rspReady = level := by simp [setRspReady]
@[simp] theorem setRspReady_draw : (setRspReady level s).draw = s.draw := by simp [setRspReady]

variable (old : RegVal) (rk : Nat)

@[simp] theorem raiseCell_cfg : (raiseCell s i old rk).cfg = s.cfg := by unfold raiseCell; split <;> rfl
@[simp] theorem raiseCell_inputs : (raiseCell s i old rk).inputs = s.inputs := by unfold raiseCell; split <;> rfl
@[simp] theorem raiseCell_rspReady : (raiseCell s i old rk).rspReady = s.rspReady := by unfold raiseCell; split <;> rfl
@[simp] theorem raiseCell_rspPort : (raiseCell s i old rk).rspPort = s.rspPort := by unfold raiseCell; split <;> rfl
@[simp] theorem raiseCell_delivered : (raiseCell s i old rk).delivered = s.delivered := by
  unfold raiseCell; split <;> rfl
@[simp] theorem raiseCell_draw : (raiseCell s i old rk).draw = s.draw := by unfold raiseCell; split <;> rfl

/-! The configured width and register count through each operation. -/

@[simp] theorem width_deliver : width (deliver s) = width s := by simp [width]
@[simp] theorem numRegs_deliver : numRegs (deliver s) = numRegs s := by simp [numRegs]
@[simp] theorem width_offer : width (offer r s) = width s := by simp [width]
@[simp] theorem numRegs_offer : numRegs (offer r s) = numRegs s := by simp [numRegs]
@[simp] theorem width_respond : width (respond st a b x s) = width s := by simp [width]
@[simp] theorem numRegs_respond : numRegs (respond st a b x s) = numRegs s := by simp [numRegs]
@[simp] theorem width_reject : width (reject st s) = width s := by simp [width]
@[simp] theorem numRegs_reject : numRegs (reject st s) = numRegs s := by simp [numRegs]
@[simp] theorem width_writeCell : width (writeCell s i v) = width s := rfl
@[simp] theorem numRegs_writeCell : numRegs (writeCell s i v) = numRegs s := rfl
@[simp] theorem width_raiseCell : width (raiseCell s i old rk) = width s := by simp [width]
@[simp] theorem numRegs_raiseCell : numRegs (raiseCell s i old rk) = numRegs s := by simp [numRegs]

end Sys2Proof.Machine
end

