-- ==== Sys2Proof/Laws/Memory.lean ====
section
/-! SUPPORT. The register array: a read after a write, the canonical form kept by every operation, and equal arrays are
equal data. -/

namespace Sys2Proof.Machine

theorem lookupCell_insertCell (i j : Nat) (v : RegVal) (cells : List (Nat × RegVal)) :
    lookupCell j (insertCell i v cells) = if j = i then some v else lookupCell j cells := by
  induction cells with
  | nil => simp [insertCell, lookupCell]
  | cons c rest ih =>
    obtain ⟨k, u⟩ := c
    simp only [insertCell]
    split
    · simp [lookupCell]
    · split
      · subst_vars; simp only [lookupCell]; split <;> simp_all
      · simp only [lookupCell, ih]; split <;> split <;> simp_all

theorem lookupCell_none_of_rising {i lo : Nat} {cells : List (Nat × RegVal)} (h : risingFrom lo cells = true)
    (hi : i < lo) : lookupCell i cells = none := by
  induction cells generalizing lo with
  | nil => rfl
  | cons c rest ih =>
    obtain ⟨k, u⟩ := c
    simp only [risingFrom, Bool.and_eq_true, decide_eq_true_eq] at h
    simp only [lookupCell]
    rw [if_neg (by omega), ih h.2 (by omega)]

theorem lookupCell_eraseCell {lo : Nat} (i j : Nat) {cells : List (Nat × RegVal)} (h : risingFrom lo cells = true) :
    lookupCell j (eraseCell i cells) = if j = i then none else lookupCell j cells := by
  induction cells generalizing lo with
  | nil => simp [eraseCell, lookupCell]
  | cons c rest ih =>
    obtain ⟨k, u⟩ := c
    simp only [risingFrom, Bool.and_eq_true, decide_eq_true_eq] at h
    simp only [eraseCell]
    split
    · next hik =>
      subst hik
      simp only [lookupCell]
      split
      · next hj => subst hj; exact lookupCell_none_of_rising h.2 (by omega)
      · rfl
    · simp only [lookupCell, ih h.2]; split <;> split <;> simp_all

theorem risingFrom_mono {lo lo' : Nat} {cells : List (Nat × RegVal)} (h : risingFrom lo cells = true) (hl : lo' ≤ lo) :
    risingFrom lo' cells = true := by
  cases cells with
  | nil => rfl
  | cons c rest =>
    simp only [risingFrom, Bool.and_eq_true, decide_eq_true_eq] at h ⊢
    exact ⟨by omega, h.2⟩

theorem risingFrom_insertCell {lo i : Nat} (v : RegVal) {cells : List (Nat × RegVal)} (h : risingFrom lo cells = true)
    (hi : lo ≤ i) : risingFrom lo (insertCell i v cells) = true := by
  induction cells generalizing lo with
  | nil => simp [insertCell, risingFrom, hi]
  | cons c rest ih =>
    obtain ⟨k, u⟩ := c
    simp only [risingFrom, Bool.and_eq_true, decide_eq_true_eq] at h
    simp only [insertCell]
    split
    · simp only [risingFrom, Bool.and_eq_true, decide_eq_true_eq]; exact ⟨hi, by omega, h.2⟩
    · split
      · subst_vars; simp only [risingFrom, Bool.and_eq_true, decide_eq_true_eq]; exact ⟨hi, h.2⟩
      · simp only [risingFrom, Bool.and_eq_true, decide_eq_true_eq]; exact ⟨h.1, ih h.2 (by omega)⟩

theorem risingFrom_eraseCell {lo : Nat} (i : Nat) {cells : List (Nat × RegVal)} (h : risingFrom lo cells = true) :
    risingFrom lo (eraseCell i cells) = true := by
  induction cells generalizing lo with
  | nil => rfl
  | cons c rest ih =>
    obtain ⟨k, u⟩ := c
    simp only [risingFrom, Bool.and_eq_true, decide_eq_true_eq] at h
    simp only [eraseCell]
    split
    · exact risingFrom_mono h.2 (by omega)
    · simp only [risingFrom, Bool.and_eq_true, decide_eq_true_eq]; exact ⟨h.1, ih h.2⟩

theorem mem_insertCell {i : Nat} {v : RegVal} {cells : List (Nat × RegVal)} {c : Nat × RegVal}
    (h : c ∈ insertCell i v cells) : c = (i, v) ∨ c ∈ cells := by
  induction cells with
  | nil => simpa [insertCell] using h
  | cons d rest ih =>
    obtain ⟨k, u⟩ := d
    simp only [insertCell] at h
    split at h
    · simpa using h
    · split at h
      · simp only [List.mem_cons] at h ⊢; tauto
      · simp only [List.mem_cons] at h ⊢
        rcases h with h | h
        · exact .inr (.inl h)
        · exact (ih h).imp id .inr

theorem mem_eraseCell {i : Nat} {cells : List (Nat × RegVal)} {c : Nat × RegVal}
    (h : c ∈ eraseCell i cells) : c ∈ cells := by
  induction cells with
  | nil => exact h
  | cons d rest ih =>
    obtain ⟨k, u⟩ := d
    simp only [eraseCell] at h
    split at h
    · exact List.mem_cons_of_mem _ h
    · simp only [List.mem_cons] at h ⊢; exact h.imp id ih

/-- The canonical form, clause by clause. -/
theorem Memory.wf_iff (r : Memory) :
    r.wf = true ↔ risingFrom 0 r.cells = true ∧
      ∀ c ∈ r.cells, c.1 < Config.numCells ∧ c.2 ≠ unlisted r.fill c.1 := by
  simp [Memory.wf]

/-- A read of the cell just written gives the value written. -/
theorem Memory.read_write_same {r : Memory} (h : r.wf = true) (i : Nat) (v : RegVal) : (r.write i v).read i = v := by
  have hr := ((Memory.wf_iff r).1 h).1
  simp only [Memory.write]
  split
  · next hv => simp [Memory.read, lookupCell_eraseCell i i hr, hv]
  · simp [Memory.read, lookupCell_insertCell]

/-- A write leaves every other cell alone. -/
theorem Memory.read_write_other {r : Memory} (h : r.wf = true) {i j : Nat} (v : RegVal) (hj : j ≠ i) :
    (r.write i v).read j = r.read j := by
  have hr := ((Memory.wf_iff r).1 h).1
  simp only [Memory.write]
  split
  · simp [Memory.read, lookupCell_eraseCell i j hr, hj]
  · simp [Memory.read, lookupCell_insertCell, hj]

/-- A read after a write, in one equation. -/
theorem Memory.read_write {r : Memory} (h : r.wf = true) (i j : Nat) (v : RegVal) :
    (r.write i v).read j = if j = i then v else r.read j := by
  split
  · subst_vars; exact Memory.read_write_same h _ _
  · next hj => exact Memory.read_write_other h v hj

@[simp] theorem Memory.write_fill (r : Memory) (i : Nat) (v : RegVal) : (r.write i v).fill = r.fill := by
  unfold Memory.write; split <;> rfl

/-- A write of a physical cell keeps the canonical form. -/
theorem Memory.write_wf {r : Memory} (h : r.wf = true) {i : Nat} (v : RegVal) (hi : i < Config.numCells) :
    (r.write i v).wf = true := by
  rw [Memory.wf_iff] at h
  rw [Memory.wf_iff, Memory.write_fill]
  unfold Memory.write
  split
  · exact ⟨risingFrom_eraseCell i h.1, fun c hc => h.2 c (mem_eraseCell hc)⟩
  · next hv =>
    refine ⟨risingFrom_insertCell v h.1 (Nat.zero_le _), fun c hc => ?_⟩
    rcases mem_insertCell hc with rfl | hc
    · exact ⟨hi, hv⟩
    · exact h.2 c hc

/-- An array that lists nothing is canonical: the array after CONFIG's clear, and after a reset. -/
@[simp] theorem Memory.wf_nil (f : Fill) : Memory.wf ⟨f, []⟩ = true := rfl

@[simp] theorem Memory.cleared_wf : Memory.cleared.wf = true := rfl

/-- CONFIG's clear writes 0 to every cell (R69). -/
@[simp] theorem Memory.read_cleared (i : Nat) : Memory.cleared.read i = 0 := rfl

/-- The reset state's array is canonical. -/
theorem State.reset_wf : State.reset.reg.wf = true := rfl

theorem lookupCell_mem {i : Nat} {v : RegVal} {cells : List (Nat × RegVal)} (h : lookupCell i cells = some v) :
    (i, v) ∈ cells := by
  induction cells with
  | nil => simp [lookupCell] at h
  | cons c rest ih =>
    obtain ⟨k, u⟩ := c
    simp only [lookupCell] at h
    split at h
    · simp_all
    · exact List.mem_cons_of_mem _ (ih h)

/-- A cell from 2^20 up is never listed. -/
theorem Memory.read_beyond {r : Memory} (h : r.wf = true) {i : Nat} (hi : Config.numCells ≤ i) :
    r.read i = unlisted r.fill i := by
  unfold Memory.read
  cases hl : lookupCell i r.cells with
  | none => rfl
  | some v => exact absurd (((Memory.wf_iff r).1 h).2 _ (lookupCell_mem hl)).1 (by simp; omega)

theorem cells_ext {lo : Nat} {a b : List (Nat × RegVal)} (ha : risingFrom lo a = true) (hb : risingFrom lo b = true)
    (h : ∀ i, lookupCell i a = lookupCell i b) : a = b := by
  induction a generalizing lo b with
  | nil =>
    cases b with
    | nil => rfl
    | cons d _ => have := h d.1; simp [lookupCell] at this
  | cons c rest ih =>
    obtain ⟨k, u⟩ := c
    cases b with
    | nil => have := h k; simp [lookupCell] at this
    | cons d rest' =>
      obtain ⟨k', u'⟩ := d
      simp only [risingFrom, Bool.and_eq_true, decide_eq_true_eq] at ha hb
      have hk := h k
      have hk' := h k'
      simp only [lookupCell, if_true] at hk hk'
      have hkk : k = k' := by
        by_contra hne
        rw [if_neg hne] at hk
        rw [if_neg (Ne.symm hne)] at hk'
        rcases Nat.lt_or_gt_of_ne hne with hlt | hlt
        · rw [lookupCell_none_of_rising hb.2 (by omega)] at hk; cases hk
        · rw [lookupCell_none_of_rising ha.2 (by omega)] at hk'; cases hk'
      subst hkk
      simp only [if_true, Option.some.injEq] at hk
      subst hk
      congr 1
      refine ih ha.2 hb.2 fun i => ?_
      have := h i
      simp only [lookupCell] at this
      split at this
      · next hi =>
        subst hi
        rw [lookupCell_none_of_rising ha.2 (by omega), lookupCell_none_of_rising hb.2 (by omega)]
      · exact this

/-- Two canonical arrays with the same fill that read alike are the same data. -/
theorem Memory.ext_of_read {r r' : Memory} (h : r.wf = true) (h' : r'.wf = true) (hf : r.fill = r'.fill)
    (hr : ∀ i, r.read i = r'.read i) : r = r' := by
  obtain ⟨f, cs⟩ := r
  obtain ⟨f', cs'⟩ := r'
  subst hf
  rw [Memory.wf_iff] at h h'
  congr 1
  refine cells_ext h.1 h'.1 fun i => ?_
  have := hr i
  unfold Memory.read at this
  dsimp only at this h h'
  cases hl : lookupCell i cs <;> cases hl' : lookupCell i cs' <;> rw [hl, hl'] at this
  · exact absurd this.symm (h'.2 _ (lookupCell_mem hl')).2
  · exact absurd this (h.2 _ (lookupCell_mem hl)).2
  · exact congrArg some this

end Sys2Proof.Machine
end

