-- ==== Sys2Proof/Laws/PerInstr.lean ====
section
/-! SUPPORT. Statements about the commands as syntax, one lemma per constructor of Instr. -/

namespace Sys2Proof.Laws.TableRow

/-- The match and the mask of a command's row in spec/opcode_table.json. -/
def row : Instr → CtrlWord × CtrlWord
  | .config _ => (0x0001, 0xFC0F)
  | .add _ => (0x0002, 0xFFFF)
  | .reduce => (0x0003, 0xFFFF)
  | .readreg _ => (0x0004, 0xFFFF)
  | .status => (0x0005, 0xFFFF)
  | .clz _ => (0x0006, 0xFFFF)
  | .split _ _ => (0x0007, 0xFC0F)

/-- The encoded control word has, under its row's mask, the row's match. -/
def Statement (i : Instr) : Prop := (encode i).cw &&& (row i).2 = (row i).1

theorem masked (imm : BitVec 6) (op : BitVec 4) :
    (((0 : BitVec 6) ++ imm ++ op : CtrlWord) &&& 0xFC0F) = (0 : BitVec 12) ++ op := by
  revert imm op; decide +kernel

theorem whole (op : BitVec 4) :
    (((0 : BitVec 6) ++ (0 : BitVec 6) ++ op : CtrlWord) &&& 0xFFFF) = (0 : BitVec 12) ++ op := by
  revert op; decide +kernel

theorem config (width : Nat) : Statement (.config width) := (masked (BitVec.ofNat 6 width) 0x1).trans rfl
theorem add (key : Word) : Statement (.add key) := (whole 0x2).trans rfl
theorem reduce : Statement .reduce := rfl
theorem readreg (index : Word) : Statement (.readreg index) := (whole 0x4).trans rfl
theorem status : Statement .status := rfl
theorem clz (word : Word) : Statement (.clz word) := (whole 0x6).trans rfl
theorem split (n : Nat) (word : Word) : Statement (.split n word) := (masked (BitVec.ofNat 6 n) 0x7).trans rfl

end Sys2Proof.Laws.TableRow
end

