-- ==== Sys2Proof/Laws/Step.lean ====
section
/-! SUPPORT. Everything a command and a step can do, said once: later proofs cite these and do not unfold the meanings. -/

namespace Sys2Proof.Machine

/-- A physical cell reads as the array holds it; another is a fault. -/
theorem readCell_eq (s : State) {i : Nat} (h : i < Config.numCells) : readCell s i = .ok (s.reg.read i) := by
  simp [readCell, h]

/-- All that raising a cell can do. -/
theorem raiseCell_cases (s : State) (i : Nat) (old : RegVal) (rk : Nat) :
    rk ≤ old.toNat ∧ raiseCell s i old rk = s ∨
      old.toNat < rk ∧ raiseCell s i old rk = writeCell s i (BitVec.ofNat 6 rk) := by
  unfold raiseCell
  split
  · next h => exact .inr ⟨h, rfl⟩
  · next h => exact .inl ⟨by omega, rfl⟩

/-- Raising a physical cell keeps the canonical form. -/
theorem raiseCell_wf {s : State} (h : s.reg.wf = true) {i : Nat} (hi : i < Config.numCells) (old : RegVal) (rk : Nat) :
    (raiseCell s i old rk).reg.wf = true := by
  rcases raiseCell_cases s i old rk with ⟨-, e⟩ | ⟨-, e⟩ <;> rw [e]
  · exact h
  · exact Memory.write_wf h _ hi

@[simp] theorem raiseCell_fill (s : State) (i : Nat) (old : RegVal) (rk : Nat) :
    (raiseCell s i old rk).reg.fill = s.reg.fill := by
  rcases raiseCell_cases s i old rk with ⟨-, e⟩ | ⟨-, e⟩ <;> simp [e]

/-- Raising a cell from its own value to a rank of at most 63 is the maximum there, and leaves every other cell alone. -/
theorem raiseCell_read {s : State} (h : s.reg.wf = true) (i j : Nat) {rk : Nat} (hk : rk ≤ 63) :
    ((raiseCell s i (s.reg.read i) rk).reg.read j).toNat =
      if j = i then max (s.reg.read j).toNat rk else (s.reg.read j).toNat := by
  rcases raiseCell_cases s i (s.reg.read i) rk with ⟨hle, e⟩ | ⟨hlt, e⟩ <;> rw [e]
  · split
    · subst_vars; omega
    · rfl
  · rw [writeCell_reg, Memory.read_write h]
    split
    · subst_vars; simp only [BitVec.toNat_ofNat]; omega
    · rfl

/-- Which state a command leaves behind its response: the one before, a constructed one, or one with a cell raised. -/
inductive Effect (i : Instr) (s : State) : State → Prop where
  /-- The command changed nothing. -/
  | unchanged : Effect i s s
  /-- A CONFIG succeeded (R69). -/
  | constructed (w : Nat) : i = .config w → s.cfg.valid = false → 8 ≤ w → w ≤ 20 → Effect i s (construct w s)
  /-- An ADD succeeded (R81). -/
  | raised (key : Word) (old : RegVal) : i = .add key → s.cfg.valid = true → 1 ≤ width s → width s ≤ 63 →
      readCell s (key >>> (64 - width s)).toNat = .ok old →
      Effect i s (raiseCell s (key >>> (64 - width s)).toNat old (rank (key <<< width s) (width s)))

theorem legalWidth_iff (w : Nat) : legalWidth w = true ↔ 8 ≤ w ∧ w ≤ 20 := by
  unfold legalWidth
  rw [Bool.and_eq_true, decide_eq_true_iff, decide_eq_true_iff]

/-- Inversion of `exec`: a command that gives a next state gives its effect with one response offered; a response whose
status is not OK comes with no effect and with every result 0 (R109). -/
theorem exec_cases {i : Instr} {s t : State} (h : exec i s = .next t) :
    ∃ st a b x u, t = respond st a b x u ∧ Effect i s u ∧ (st ≠ .ok → u = s ∧ a = 0 ∧ b = 0 ∧ x = 0) := by
  cases i with
  | config w =>
    simp only [exec, execConfig] at h
    split at h
    · cases h; exact ⟨_, _, _, _, s, rfl, .unchanged, by simp⟩
    · next hv =>
      split at h
      · next hw =>
        cases h
        have := (legalWidth_iff w).1 hw
        exact ⟨_, _, _, _, _, rfl, .constructed w rfl (by simpa using hv) this.1 this.2, by simp⟩
      · cases h; exact ⟨_, _, _, _, s, rfl, .unchanged, by simp⟩
  | add key =>
    simp only [exec, execAdd] at h
    split at h
    · next hv =>
      by_cases hw : 1 ≤ width s ∧ width s ≤ 63
      · rw [splitWord_eq key hw.1 hw.2] at h
        dsimp only at h
        split at h
        · cases h
        · next old hold =>
          cases h
          exact ⟨_, _, _, _, _, rfl, .raised key old rfl hv hw.1 hw.2 hold, by simp⟩
      · rw [splitWord_eq_none key (by omega)] at h; cases h
    · cases h; exact ⟨_, _, _, _, s, rfl, .unchanged, by simp⟩
  | reduce =>
    simp only [exec, execReduce] at h
    split at h
    · split at h
      · cases h; exact ⟨_, _, _, _, s, rfl, .unchanged, by simp⟩
      · cases h
    · cases h; exact ⟨_, _, _, _, s, rfl, .unchanged, by simp⟩
  | readreg index =>
    simp only [exec, execReadreg] at h
    split at h
    · split at h
      · split at h
        · cases h
        · cases h; exact ⟨_, _, _, _, s, rfl, .unchanged, by simp⟩
      · cases h; exact ⟨_, _, _, _, s, rfl, .unchanged, by simp⟩
    · cases h; exact ⟨_, _, _, _, s, rfl, .unchanged, by simp⟩
  | status => cases h; exact ⟨_, _, _, _, s, rfl, .unchanged, by simp⟩
  | clz word => cases h; exact ⟨_, _, _, _, s, rfl, .unchanged, by simp⟩
  | split n word =>
    simp only [exec, execSplit] at h
    split at h <;> cases h <;> exact ⟨_, _, _, _, s, rfl, .unchanged, by simp⟩

/-- What a performed command does: an illegal one is rejected, every other is `exec` of the command it spells. -/
theorem performCommand_cases (c : Command) (s : State) :
    (∃ e, decode c = .error e ∧ performCommand c s = .next (reject .illegal s)) ∨
      ∃ i, decode c = .ok i ∧ performCommand c s = exec i s := by
  unfold performCommand
  cases h : decode c with
  | error e => exact .inl ⟨e, rfl, rfl⟩
  | ok i => exact .inr ⟨i, rfl, rfl⟩

/-- Inversion of `performCommand`: as `exec_cases`, where a command that changed anything is one the decoder accepts. -/
theorem performCommand_inv {c : Command} {s t : State} (h : performCommand c s = .next t) :
    ∃ st a b x u, t = respond st a b x u ∧ (u = s ∨ ∃ i, decode c = .ok i ∧ Effect i s u) ∧
      (st ≠ .ok → u = s ∧ a = 0 ∧ b = 0 ∧ x = 0) := by
  rcases performCommand_cases c s with ⟨_, -, e⟩ | ⟨i, hd, e⟩ <;> rw [e] at h
  · cases h; exact ⟨_, _, _, _, s, rfl, .inl rfl, fun _ => ⟨rfl, rfl, rfl, rfl⟩⟩
  · obtain ⟨st, a, b, x, u, ht, he, hz⟩ := exec_cases h
    exact ⟨st, a, b, x, u, ht, .inr ⟨i, hd, he⟩, hz⟩

/-- A command that is neither a CONFIG nor an ADD changes neither CFG nor REG, whether it is legal or not. -/
theorem performCommand_keeps {c : Command} {s t : State} (h : performCommand c s = .next t)
    (hc : ∀ w, decode c ≠ .ok (.config w)) (ha : ∀ key, decode c ≠ .ok (.add key)) : t.cfg = s.cfg ∧ t.reg = s.reg := by
  obtain ⟨st, a, b, x, u, rfl, rfl | ⟨i, hd, he⟩, -⟩ := performCommand_inv h
  · simp
  · cases he with
    | unchanged => simp
    | constructed w hi => exact absurd (hi ▸ hd) (hc w)
    | raised key old hi => exact absurd (hi ▸ hd) (ha key)

/-- On a configured block no command, legal or not, changes CFG (R71). -/
theorem performCommand_cfg {c : Command} {s t : State} (h : performCommand c s = .next t) (hv : s.cfg.valid = true) :
    t.cfg = s.cfg := by
  obtain ⟨st, a, b, x, u, rfl, rfl | ⟨i, hd, he⟩, -⟩ := performCommand_inv h
  · simp
  · cases he with
    | unchanged => simp
    | constructed w _ hv' => rw [hv] at hv'; cases hv'
    | raised key old => simp

/-- A run of one command more: the first answers a next state, and the others run from it. -/
theorem performAll_cons {c : Command} {rest : List Command} {s u : State} (h : performAll (c :: rest) s = .next u) :
    ∃ t, performCommand c s = .next t ∧ performAll rest t = .next u := by
  simp only [performAll] at h
  split at h
  · next t ht => exact ⟨t, ht, h⟩
  · cases h
  · cases h

/-- The same of a run of decoded commands. -/
theorem execAll_cons {i : Instr} {rest : List Instr} {s u : State} (h : execAll (i :: rest) s = .next u) :
    ∃ t, exec i s = .next t ∧ execAll rest t = .next u := by
  simp only [execAll] at h
  split at h
  · next t ht => exact ⟨t, ht, h⟩
  · cases h
  · cases h

/-- All that waiting with a command offered can be: nothing more, a reset, or a change of `rsp_ready`. -/
theorem waitCommand_cases (c : Command) (rest : List HostAction) (s : State) :
    waitCommand c rest s = deliver s ∧ (∀ later, rest ≠ .rst :: later) ∧ (∀ l later, rest ≠ .rspReady l :: later) ∨
    (∃ later, rest = .rst :: later ∧ waitCommand c rest s = applyReset { s with inputs := .command c :: later }) ∨
    ∃ level later, rest = .rspReady level :: later ∧
      waitCommand c rest s = setRspReady level { s with inputs := .command c :: later } := by
  cases rest with
  | nil => exact .inl ⟨rfl, nofun, nofun⟩
  | cons a later =>
    cases a with
    | command _ => exact .inl ⟨rfl, nofun, nofun⟩
    | rst => exact .inr (.inl ⟨later, rfl, rfl⟩)
    | rspReady level => exact .inr (.inr ⟨level, later, rfl, rfl⟩)

/-- Everything a step can be, by the host's next action and the response port. -/
theorem step_cases (s : State) :
    (s.inputs = [] ∧ step s = .next (deliver s)) ∨
    (∃ c rest, s.inputs = .command c :: rest ∧ s.rspPort = none ∧
      step s = performCommand c { s with inputs := rest }) ∨
    (∃ c rest r, s.inputs = .command c :: rest ∧ s.rspPort = some r ∧ step s = .next (waitCommand c rest s)) ∨
    (∃ rest, s.inputs = .rst :: rest ∧ step s = .next (applyReset { s with inputs := rest })) ∨
    (∃ level rest, s.inputs = .rspReady level :: rest ∧
      step s = .next (setRspReady level { s with inputs := rest })) := by
  unfold step stepPorts
  cases hin : s.inputs with
  | nil => exact .inl ⟨rfl, rfl⟩
  | cons a rest =>
    cases a with
    | command c =>
      cases hp : s.rspPort with
      | none => exact .inr (.inl ⟨c, rest, rfl, rfl, by simp [acceptCommand, cmdReady, rspValid, hp]⟩)
      | some r => exact .inr (.inr (.inl ⟨c, rest, r, rfl, rfl, by simp [acceptCommand, cmdReady, rspValid, hp]⟩))
    | rst => exact .inr (.inr (.inr (.inl ⟨rest, rfl, rfl⟩)))
    | rspReady level => exact .inr (.inr (.inr (.inr ⟨level, rest, rfl, rfl⟩)))

end Sys2Proof.Machine
end

