-- ==== Sys2Proof/Tests/Slice0.lean ====
section
/-! SUPPORT. Small tests with results taken from spec/95_test_vectors.md, and for every statement with hypotheses a witness
that meets them (theorems `witness_<statement>`). -/

namespace Sys2Proof.Tests

open Sys2Proof Sys2Proof.Machine Host.Outcome

/-- The next state, if there is one. -/
def nextState : Host.Outcome State Fault Refusal → Option State
  | next s => some s
  | fault _ => none
  | refused _ => none

/-- The response of a command. -/
def reply (o : Host.Outcome State Fault Refusal) : Option Response :=
  (nextState o).bind lastResponse

/-- The register `i` after a command. -/
def cellAfter (i : Nat) (o : Host.Outcome State Fault Refusal) : Option RegVal :=
  (nextState o).map fun s => s.reg.read i

/-- The configuration after a command. -/
def cfgAfter (o : Host.Outcome State Fault Refusal) : Option Cfg :=
  (nextState o).map fun s => s.cfg

/-- A block configured with width `w`, with these cells not 0. -/
def block (w : Nat) (cells : List (Nat × RegVal)) : State :=
  { State.reset with cfg := ⟨true, BitVec.ofNat 5 w⟩, reg := ⟨.zero, cells⟩ }

/-- The same block with these inputs next. -/
def withInputs (s : State) (inputs : List HostAction) : State := { s with inputs := inputs }

/-- The same block with a response waiting at the port. -/
def withPort (s : State) (r : Response) : State := { s with rspReady := false, rspPort := some r }

/-! ### Well-formedness, decoding, encoding -/

theorem test_wellFormed_refuses_config_64 : (Instr.config 64).wellFormed = false := by decide
theorem test_wellFormed_refuses_split_64 : (Instr.split 64 1).wellFormed = false := by decide

/-- DE-1 to DE-8, with the encoding written out from R50 and R53. -/
theorem test_decode_config : decode ⟨0b000000_001000_0001, 0⟩ = .ok (.config 8) := by decide
theorem test_decode_add : decode ⟨0b000000_000000_0010, 0x0100000000000001⟩ = .ok (.add 0x0100000000000001) := by decide
theorem test_decode_reduce : decode ⟨0b000000_000000_0011, 7⟩ = .ok .reduce := by decide
theorem test_decode_readreg : decode ⟨0b000000_000000_0100, 300⟩ = .ok (.readreg 300) := by decide
theorem test_decode_status : decode ⟨0b000000_000000_0101, 0⟩ = .ok .status := by decide
theorem test_decode_clz : decode ⟨0b000000_000000_0110, 0xFF⟩ = .ok (.clz 0xFF) := by decide
theorem test_decode_split : decode ⟨0b000000_010100_0111, 1⟩ = .ok (.split 20 1) := by decide

/-- DE-10, DE-11, EV-2. -/
theorem test_decode_illegal :
    decode ⟨0x0015, 0⟩ = .error .immediateNotZero ∧ decode ⟨0xFC07, 0⟩ = .error .reservedBits ∧
      decode ⟨0x0008, 0⟩ = .error .reservedOpcode := by decide

/-- The last lines of P4. -/
theorem test_assemble :
    assembleLine "  split 63, 0x1234_5678_9ABC_DEF1 ; SV-7" = .ok (some ⟨0x03F7, 0x123456789ABCDEF1⟩) ∧
      assembleLine ".word   0x0400, 0" = .ok (some ⟨0x0400, 0⟩) ∧ assembleLine "CONFIG 64" = .error .outOfRange := by
  decide +kernel

theorem test_decodeTableWord :
    decodeTableWord 16 0x03F1 = some (.config 63) ∧ decodeTableWord 16 0x0007 = some (.split 0 0) ∧
      decodeTableWord 80 0x1_0004 = some (.readreg 1) ∧ decodeTableWord 16 0x0401 = none := by decide

/-! ### One command each -/

/-- KV-2, KV-4. -/
theorem test_config :
    cfgAfter (exec (.config 8) State.reset) = some ⟨true, 8⟩ ∧
      reply (exec (.config 7) State.reset) = some ⟨4, 0, 0, 0⟩ := by decide
/-- KV-9. -/
theorem test_config_again : reply (exec (.config 7) (block 20 [])) = some ⟨3, 0, 0, 0⟩ := by decide

/-- KV-1, KV-11. -/
theorem test_status :
    reply (exec .status State.reset) = some ⟨0, 0, 0, 0⟩ ∧
      reply (exec .status (block 20 [])) = some ⟨0, 0x114, 0, 0⟩ := by decide

/-- AV-4 (UV-1), AV-17. -/
theorem test_add_rank :
    cellAfter 1 (exec (.add 0x0100000000000001) (block 8 [])) = some 56 ∧
      cellAfter 1 (exec (.add 0x0000100000000000) (block 20 [])) = some 45 := by decide +kernel
/-- UV-3, UV-5. -/
theorem test_add_maximum :
    cellAfter 1 (exec (.add 0x01FFFFFFFFFFFFFF) (block 8 [(1, 56)])) = some 56 ∧
      cellAfter 0 (exec (.add 0) (block 8 [(0, 49)])) = some 57 := by decide +kernel

/-- RV-1, RV-4. -/
theorem test_readreg :
    reply (exec (.readreg 1) (block 8 [(1, 56)])) = some ⟨0, 56, 0, 0⟩ ∧
      reply (exec (.readreg 256) (block 8 [(1, 56)])) = some ⟨5, 0, 0, 0⟩ := by decide
/-- RV-7, RV-8. -/
theorem test_readreg_rejected :
    reply (exec (.readreg 0x100000) (block 20 [])) = some ⟨5, 0, 0, 0⟩ ∧
      reply (exec (.readreg 300) State.reset) = some ⟨2, 0, 0, 0⟩ := by decide

/-- DV-2 (WE-6). -/
theorem test_reduce :
    reply (exec .reduce (block 8 [(0, 57)])) = some ⟨0, 255, 0, 0x7F8000000000000040⟩ := by decide +kernel
/-- P3. -/
theorem test_reduce_mixed :
    reply (exec .reduce (block 8 [(0, 49), (1, 56), (255, 1)])) = some ⟨0, 253, 0, 0x7EC000000000004080⟩ := by
  decide +kernel

/-- CV-5, CV-6. -/
theorem test_clz :
    reply (exec (.clz 0x7FFFFFFFFFFFFFFF) State.reset) = some ⟨0, 1, 0, 0⟩ ∧
      reply (exec (.clz 0x00000000FFFFFFFF) State.reset) = some ⟨0, 32, 0, 0⟩ := by decide +kernel

/-- SV-7, SV-10. -/
theorem test_split :
    reply (exec (.split 63 0x123456789ABCDEF1) State.reset) =
        some ⟨0, 0x091A2B3C4D5E6F78, 0x8000000000000000, 0⟩ ∧
      reply (exec (.split 0 5) State.reset) = some ⟨5, 0, 0, 0⟩ := by decide +kernel
/-- SV-4. -/
theorem test_split_20 :
    reply (exec (.split 20 0x123456789ABCDEF0) State.reset) = some ⟨0, 0x12345, 0x6789ABCDEF000000, 0⟩ := by
  decide +kernel

/-- LV-5, LV-6, LV-7. -/
theorem test_lut : lut 57 = 0x40 ∧ lut 63 = 1 ∧ lut 64 = 0 := by decide

/-- EV-6: the rejection of an illegal ADD comes before NOT_CONFIGURED. -/
theorem test_illegal : reply (performCommand ⟨0x0012, 0⟩ State.reset) = some ⟨1, 0, 0, 0⟩ := by decide

/-- The first command after reset is the one the host offers. -/
theorem test_withFetchWord :
    reply (step (State.reset.withFetchWord 16 0x0005)) = some ⟨0, 0, 0, 0⟩ ∧
      cfgAfter (step (State.reset.withFetchWord 16 0x0141)) = some ⟨true, 20⟩ ∧
      reply (step (State.reset.withFetchWord 16 0x0003)) = some ⟨2, 0, 0, 0⟩ := by decide

/-- R122: with a response outstanding the command stays offered. -/
theorem test_handshake :
    let s := withInputs (withPort State.reset ⟨0, 0, 0, 0⟩) [.command ⟨0x0005, 0⟩]
    nextState (step s) = some s := by decide

/-! ### States the witnesses use -/

/-- A block no CONFIG has reached meets the invariant, with any inputs. -/
theorem inv_reset (inputs : List HostAction) : Inv (withInputs State.reset inputs) where
  cfg := ⟨fun h => Bool.noConfusion h, fun _ => rfl⟩
  array := fun h => Bool.noConfusion h
  unconfigured := fun _ => ⟨0, rfl⟩
  canonical := rfl
  port := fun h => Bool.noConfusion h
  offered := fun _ h => Option.noConfusion rfl (heq_of_eq h)
  received := fun _ h => absurd h List.not_mem_nil

theorem width_block {w : Nat} (hw : w ≤ 20) (cells : List (Nat × RegVal)) (inputs : List HostAction) :
    width (withInputs (block w cells) inputs) = w := by
  change (BitVec.ofNat 5 w).toNat = w
  rw [BitVec.toNat_ofNat, Nat.mod_eq_of_lt (by omega)]

/-- A configured block whose listed cells are in range meets the invariant, with any inputs. -/
theorem inv_block {w : Nat} (h8 : 8 ≤ w) (hw : w ≤ 20) {cells : List (Nat × RegVal)} (hr : risingFrom 0 cells = true)
    (hc : ∀ c ∈ cells, c.1 < 2 ^ w ∧ c.2.toNat ≤ 65 - w ∧ c.2 ≠ 0) (inputs : List HostAction) :
    Inv (withInputs (block w cells) inputs) where
  cfg := by
    have h := width_block hw cells inputs
    exact ⟨fun _ => ⟨h8.trans_eq h.symm, h.le.trans hw⟩, fun h => Bool.noConfusion h⟩
  array := by
    intro _
    have h := width_block hw cells inputs
    have hread : ∀ i, (withInputs (block w cells) inputs).reg.read i = (lookupCell i cells).getD 0 := by
      intro i
      change Memory.read ⟨.zero, cells⟩ i = _
      unfold Memory.read
      cases lookupCell i cells <;> rfl
    refine ⟨rfl, fun i _ => ?_, fun i hi => ?_⟩
    · rw [h, hread]
      cases hl : lookupCell i cells with
      | none => exact Nat.zero_le _
      | some v => exact (hc _ (lookupCell_mem hl)).2.1
    · rw [hread]
      cases hl : lookupCell i cells with
      | none => rfl
      | some v =>
        have := (hc _ (lookupCell_mem hl)).1
        unfold numRegs at hi
        rw [h] at hi
        omega
  unconfigured := fun h => Bool.noConfusion h
  canonical := by
    rw [Memory.wf_iff]
    refine ⟨hr, fun c h => ⟨?_, (hc c h).2.2⟩⟩
    exact Nat.lt_of_lt_of_le (hc c h).1 (Nat.pow_le_pow_right (by decide) hw)
  port := fun h => Bool.noConfusion h
  offered := fun _ h => Option.noConfusion rfl (heq_of_eq h)
  received := fun _ h => absurd h List.not_mem_nil

theorem inv_blank {w : Nat} (h8 : 8 ≤ w) (hw : w ≤ 20) (inputs : List HostAction) :
    Inv (withInputs (block w []) inputs) :=
  inv_block h8 hw rfl (fun _ h => absurd h List.not_mem_nil) inputs

/-- It still does with a response held at the port. -/
theorem inv_withPort {s : State} {r : Response} (h : Inv s) (hr : ResponseOk r) : Inv (withPort s r) :=
  { h with
    port := fun _ => rfl
    offered := fun r' hr' => by cases hr'; exact hr
    array := h.array
    unconfigured := h.unconfigured }

theorem okResponse_ok : ResponseOk ⟨0, 0, 0, 0⟩ := by unfold ResponseOk; decide

/-- Every register of a width-8 block at its largest value, 57 (DV-6). -/
def fullBlock : State := block 8 ((List.range 256).map fun i => (i, 57))

theorem fullBlock_cells : risingFrom 0 ((List.range 256).map fun i => (i, (57 : RegVal))) = true := by decide +kernel

theorem fullBlock_read : ∀ i, i < 256 → fullBlock.reg.read i = 57 := by decide +kernel

theorem inv_fullBlock : Inv fullBlock :=
  inv_block (w := 8) (by decide) (by decide) fullBlock_cells (by
    intro c h
    obtain ⟨i, hi, rfl⟩ := List.mem_map.1 h
    exact ⟨List.mem_range.1 hi, (by decide : (57 : RegVal).toNat ≤ 65 - 8 ∧ (57 : RegVal) ≠ 0)⟩) []

/-! ### Witnesses: the encoding -/

theorem witness_DecodeOfEncodeIsTheCommand :
    (Instr.config 63).wellFormed = true ∧ (Instr.split 0 1).wellFormed = true ∧
      (Instr.split 63 1).wellFormed = true := by decide

/-- One control word for each cause of R54, at the edges of the ranges, and one for each clause about values. -/
theorem witness_IllegalControlWordsAndTheirRejection :
    (0x0000 : CtrlWord).toNat % 16 = 0 ∧ 8 ≤ (0x0008 : CtrlWord).toNat % 16 ∧ (0x0401 : CtrlWord).toNat / 1024 ≠ 0 ∧
      ((0x0012 : CtrlWord).toNat % 16 = 2 ∧ (0x0012 : CtrlWord).toNat / 16 % 64 ≠ 0) ∧
      ((0x0071 : CtrlWord).toNat % 16 = 1 ∧ (0x0071 : CtrlWord).toNat / 16 % 64 < 8 ∧
        (0x0071 : CtrlWord).toNat / 1024 = 0) ∧
      ((0x0151 : CtrlWord).toNat % 16 = 1 ∧ 20 < (0x0151 : CtrlWord).toNat / 16 % 64) ∧
      State.reset.cfg.valid = false ∧
      ((0x0007 : CtrlWord).toNat % 16 = 7 ∧ (0x0007 : CtrlWord).toNat / 16 % 64 = 0 ∧
        (0x0007 : CtrlWord).toNat / 1024 = 0) := by decide

/-- A legal control word, its next state and its response. -/
theorem witness_IllegalControlWords_legal :
    (nextState (performCommand ⟨0x0006, 1⟩ State.reset)).isSome = true ∧
      reply (performCommand ⟨0x0006, 1⟩ State.reset) = some ⟨0, 63, 0, 0⟩ := by decide +kernel

theorem witness_ImmediateAndDataOperands :
    ((0x03F1 : CtrlWord).toNat / 1024 = 0 ∧ (0x03F1 : CtrlWord).toNat % 16 = 1) ∧
      ((0x03F7 : CtrlWord).toNat / 1024 = 0 ∧ (0x03F7 : CtrlWord).toNat % 16 = 7) ∧
      ((0x0002 : CtrlWord).toNat % 16 = 2 ∧ (0x0004 : CtrlWord).toNat % 16 = 4 ∧ (0x0006 : CtrlWord).toNat % 16 = 6 ∧
        (0x0006 : CtrlWord).toNat / 16 = 0) ∧
      ((0x0015 : CtrlWord).toNat % 16 = 5 ∧ (0x0015 : CtrlWord).toNat / 16 ≠ 0) ∧
      (0x0003 : CtrlWord).toNat % 16 = 3 := by decide

theorem witness_AssemblerRangesAndEncodings : 2 ^ 64 ≤ 2 ^ 64 ∧ 63 ≤ 63 := by decide

/-! ### Witnesses: the step -/

theorem witness_StepPerformsTheDecodedCommand :
    ∃ (s : State) (c : Command) (rest : List HostAction) (i : Instr),
      s.inputs = .command c :: rest ∧ s.rspPort = none ∧ decode c = .ok i :=
  ⟨withInputs State.reset [.command ⟨0x0081, 0⟩, .rst], ⟨0x0081, 0⟩, [.rst], .config 8, rfl, rfl, rfl⟩

/-- A state for each clause, in their order. -/
theorem witness_StepWithoutACommandToPerform :
    let r : Response := ⟨0, 0, 0, 0⟩
    let c : Command := ⟨5, 0⟩
    let held (inputs : List HostAction) := withInputs (withPort State.reset r) inputs
    (State.reset.inputs = [] ∧ State.reset.rspPort = none) ∧
    ((held []).inputs = [] ∧ (held []).rspReady = false ∧ (held []).rspPort = some r) ∧
    (∃ s : State, s.inputs = [] ∧ s.rspReady = true ∧ s.rspPort = some r) ∧
    (∃ s : State, s.inputs = .command ⟨0, 0⟩ :: [] ∧ s.rspPort = none ∧ decode ⟨0, 0⟩ = .error .reservedOpcode) ∧
    ((held [.rspReady true]).inputs = .rspReady true :: [] ∧ (held [.rspReady true]).rspPort = some r) ∧
    (∃ s : State, s.inputs = .rspReady true :: [] ∧ s.rspPort = none) ∧
    (held [.rspReady false]).inputs = .rspReady false :: [] ∧
    ((held [.command c, .rspReady true]).inputs = .command c :: .rspReady true :: []) ∧
    ((held [.command c, .rspReady false]).inputs = .command c :: .rspReady false :: []) ∧
    ((held [.command c]).inputs = .command c :: [] ∧ (held [.command c, .command c]).inputs = .command c :: [.command c] ∧
      (held [.command c]).rspReady = false ∧
      ∃ s : State, s.inputs = .command c :: [] ∧ s.rspPort = some r ∧ s.rspReady = true) ∧
    (held [.rst]).inputs = .rst :: [] ∧ (held [.command c, .rst]).inputs = .command c :: .rst :: [] :=
  ⟨⟨rfl, rfl⟩, ⟨rfl, rfl, rfl⟩, ⟨{ State.reset with rspPort := some ⟨0, 0, 0, 0⟩ }, rfl, rfl, rfl⟩,
    ⟨withInputs State.reset [.command ⟨0, 0⟩], rfl, rfl, rfl⟩, ⟨rfl, rfl⟩, ⟨withInputs State.reset [.rspReady true], rfl, rfl⟩,
    rfl, rfl, rfl,
    ⟨rfl, rfl, rfl, { State.reset with inputs := [.command ⟨5, 0⟩], rspPort := some ⟨0, 0, 0, 0⟩ }, rfl, rfl, rfl⟩, rfl, rfl⟩

/-- A command accepted with the host taking responses, one accepted with the host not taking them, one offered while a
response is outstanding, and a response taken: `cmd_ready` rises. -/
theorem witness_HandshakeLosesAndDuplicatesNothing :
    (∃ s t, Inv s ∧ step s = next t ∧ cmdValid s = true ∧ cmdReady s = true ∧ s.rspReady = true) ∧
    (∃ s t, Inv s ∧ step s = next t ∧ cmdValid s = true ∧ cmdReady s = true ∧ s.rspReady = false) ∧
    (∃ s t, Inv s ∧ step s = next t ∧ cmdValid s = true ∧ cmdReady s = false ∧ ¬ResetNext s ∧
      ∀ c level rest, s.inputs ≠ .command c :: .rspReady level :: rest) ∧
    ∃ s t, Inv s ∧ step s = next t ∧ cmdReady s = false ∧ cmdReady t = true := by
  have h := inv_reset [.command ⟨0x0005, 0⟩]
  have hp := inv_withPort h okResponse_ok
  refine ⟨⟨_, _, h, rfl, rfl, rfl, rfl⟩, ⟨{ withInputs State.reset [.command ⟨0x0005, 0⟩] with rspReady := false }, _,
    { h with port := fun h => Bool.noConfusion h, array := h.array, unconfigured := h.unconfigured }, rfl, rfl, rfl, rfl⟩,
    ⟨_, _, hp, rfl, rfl, rfl, nofun, nofun⟩, ⟨_, _, inv_withPort (inv_reset [.rspReady true]) okResponse_ok, rfl, rfl, rfl⟩⟩

/-- Reset of an idle block, and reset while a command waits behind a response outstanding. -/
theorem witness_ResetFromAnyState :
    ResetNext (withInputs (block 8 [(1, 56)]) [.rst]) ∧
      ResetNext (withPort (withInputs (block 8 []) [.command ⟨5, 0⟩, .rst]) ⟨0, 0, 0, 0⟩) :=
  ⟨.inl ⟨_, rfl⟩, .inr ⟨rfl, _, _, rfl⟩⟩

/-! ### Witnesses: the bit utilities -/

theorem witness_ClzCountsFromTheTop :
    (∀ j, 0 < j → (1 : Word).getLsbD j = false) ∧ (1 : Word).getLsbD 0 = true ∧
      (∀ j, 63 < j → (0x8000000000000001 : Word).getLsbD j = false) ∧ (0x8000000000000001 : Word).getLsbD 63 = true := by
  refine ⟨fun j h => ?_, rfl, fun j h => ?_, rfl⟩
  · rw [show (1 : Word) = 1#64 from rfl, BitVec.getLsbD_one]; simp; omega
  · exact BitVec.getLsbD_of_ge _ _ (by omega)

/-- A function that gives the place of the highest set bit: 63 less the leading zeros. -/
theorem witness_ClzProperties :
    ∃ msb : Word → Nat,
      (∀ w : Word, w ≠ 0 → w.getLsbD (msb w) = true ∧ ∀ j, msb w < j → w.getLsbD j = false) ∧
        (msb 1 < msb 2 ∧ msb 2 = msb 3) ∧ (0x8000000000000000 : Word).getLsbD 63 = true := by
  refine ⟨fun w => 63 - clz64 w, fun w hw => ?_, by decide +kernel, rfl⟩
  have hs := clzBelow_spec w 64
  have hlt : clz64 w < 64 := by
    by_contra hge
    have he : clzBelow w 64 = 64 := Nat.le_antisymm (clzBelow_le w 64) (not_lt.1 hge)
    refine hw (BitVec.eq_of_getLsbD_eq fun i hi => ?_)
    have := hs.1 (63 - i) (by omega)
    rw [show 64 - 1 - (63 - i) = i by omega] at this
    simpa using this
  refine ⟨hs.2 hlt, fun j hj => ?_⟩
  by_cases h64 : j < 64
  · have hj' : 63 - clzBelow w 64 < j := hj
    have := hs.1 (63 - j) (by omega)
    rwa [show 64 - 1 - (63 - j) = j by omega] at this
  · exact BitVec.getLsbD_of_ge _ _ (by omega)

/-- Both ends of the split point, for `SplitHeadAndTail` and `SplitRoundTrip`; a nonzero split point for
`SplitCommandResult`. -/
theorem witness_SplitHeadAndTail_SplitRoundTrip_SplitCommandResult :
    (1 ≤ 1 ∧ 1 ≤ 63) ∧ (1 ≤ 63 ∧ 63 ≤ 63) ∧ (0x0407 : CtrlWord).toNat % 16 = 7 ∧ 1024 ≤ (0x0407 : CtrlWord).toNat := by
  decide

theorem witness_UndefinedSplitsGetNoValue :
    decode ⟨0x03F7, 5⟩ = .ok (.split 63 5) ∧ ∃ s, Inv s ∧ s.cfg.valid = true :=
  ⟨rfl, _, inv_blank (w := 8) (by decide) (by decide) [], rfl⟩

theorem witness_ClzCommandResult :
    (0x0016 : CtrlWord).toNat % 16 = 6 ∧ (0x0016 : CtrlWord) ≠ 0x0006 ∧ (0x8006 : CtrlWord).toNat % 16 = 6 := by decide

/-! ### Witnesses: construction -/

/-- The legal widths 8 and 20, the illegal 7 and 21, an unconfigured and a configured block, a reserved bit. Also for
`WidthCheckNeverClamps`, `AfterConstruction` and `ConfigFrame`. -/
theorem witness_ConfigConstructsOrRejects :
    State.reset.cfg.valid = false ∧ (8 ≤ 8 ∧ 20 ≤ 20) ∧ (7 < 8 ∨ 20 < 7) ∧ (21 < 8 ∨ 20 < 21) ∧
      (block 8 []).cfg.valid = true ∧ (0x0401 : CtrlWord).toNat % 16 = 1 ∧ 1024 ≤ (0x0401 : CtrlWord).toNat := by decide

theorem witness_WidthCheckNeverClamps :
    ∃ s : State, s.cfg.valid = false ∧ (nextState (exec (.config 8) s)).isSome = true :=
  ⟨State.reset, rfl, rfl⟩

/-- An ADD, a CONFIG and an illegal control word come between; and decoded commands. -/
theorem witness_NoSecondConfigUntilReset :
    (∃ (between : List Command) (s t : State), s.cfg.valid = true ∧ performAll between s = next t ∧
      between = [⟨0x0002, 0⟩, ⟨0x0091, 0⟩, ⟨0x0012, 0⟩]) ∧
    ∃ (between : List Instr) (s t : State), s.cfg.valid = true ∧ execAll between s = next t ∧ between.length = 2 :=
  ⟨⟨_, block 8 [], _, rfl, rfl, rfl⟩, ⟨[.add 0, .config 9], block 8 [], _, rfl, rfl, rfl⟩⟩

theorem witness_FailedConfigLeavesNoInstance :
    (∃ s t, Inv s ∧ s.cfg.valid = false ∧ exec (.config 7) s = next t) ∧
      ∃ s t, Inv s ∧ s.cfg.valid = false ∧ exec (.config 21) s = next t :=
  ⟨⟨_, _, inv_reset [], rfl, rfl⟩, ⟨_, _, inv_reset [], rfl, rfl⟩⟩

/-- An illegal control word with op 5; and an unconfigured block that is not `State.reset`. -/
theorem witness_StatusImage :
    ((0x0015 : CtrlWord).toNat % 16 = 5 ∧ (0x0015 : CtrlWord) ≠ 0x0005) ∧
      ∃ s, Inv s ∧ s.cfg.valid = false ∧ s ≠ State.reset :=
  ⟨by decide, _, inv_reset [.rst], rfl, by decide⟩

/-- For the premise on the host's arithmetic. -/
theorem witness_AfterConstruction : State.reset.cfg.valid = false ∧ (8 ≤ 8 ∧ 20 ≤ 20) ∧ ∃ num : HostNumerics, num.Exact :=
  ⟨rfl, ⟨le_rfl, le_rfl⟩, exact_numerics_exist⟩

/-! ### Witnesses: the update path -/

/-- Both ends of the widths; a key whose remainder is 0 and one whose remainder is not. -/
theorem witness_AddRaisesOneRegister :
    (∃ s, s.reg.wf = true ∧ Configured s ∧ width s = 8) ∧ (∃ s, s.reg.wf = true ∧ Configured s ∧ width s = 20) ∧
      State.reset.cfg.valid = false ∧ ((0xFF00000000000000 : Word) <<< 8 = 0 ∧ (1 : Word) <<< 20 ≠ 0) ∧
      (0x0012 : CtrlWord).toNat % 16 = 2 ∧ (0x0012 : CtrlWord) ≠ 0x0002 := by
  refine ⟨⟨block 8 [(1, 56)], ?_, ?_, ?_⟩, ⟨block 20 [], ?_, ?_, ?_⟩, ?_⟩ <;> first | decide | (unfold Configured; decide)

theorem witness_NotConfiguredCommands :
    State.reset.cfg.valid = false ∧ needsConfig (.add 0) = true ∧ needsConfig .reduce = true ∧
      needsConfig (.readreg 0) = true ∧ Status.notConfigured.code = 2 ∧
      reply (exec (.add 0) State.reset) = some ⟨2, 0, 0, 0⟩ := by decide

/-- Both ends of the widths; a key whose remainder is 0 and one whose remainder is not. Also for
`RankEquivalentForms`. -/
theorem witness_RankRange_RankEquivalentForms :
    (8 ≤ 8 ∧ 8 ≤ 20) ∧ (8 ≤ 20 ∧ 20 ≤ 20) ∧ (0 : Word) <<< 8 = 0 ∧ (1 : Word) <<< 20 ≠ 0 := by decide

theorem witness_AllZeroKeyAtWidthEight :
    (∃ s u : State, s.cfg.valid = false ∧ exec (.config 8) s = next u) ∧ ∃ num : HostNumerics, num.Exact :=
  ⟨⟨State.reset, _, rfl, rfl⟩, exact_numerics_exist⟩

/-- A configured block that already holds a value, and two sequences with the same keys. -/
theorem witness_AddsAreOrderIndependentMaxima :
    (∃ s, Inv s ∧ s.cfg.valid = true ∧ s.reg.read 1 = 56) ∧
      ∀ key : Word, key ∈ [(0 : Word), 1] ↔ key ∈ [(1 : Word), 0, 1] := by
  refine ⟨⟨_, inv_block (w := 8) (cells := [(1, 56)]) (by decide) (by decide) rfl (by decide) [], rfl, rfl⟩, fun key => ?_⟩
  simp only [List.mem_cons, List.not_mem_nil]; tauto

/-- A configured block of width 8, with the last legal index and the first illegal one. -/
theorem witness_ReadregResult :
    (∃ s, Configured s ∧ (255 : Word).toNat < 2 ^ width s ∧ 2 ^ width s ≤ (256 : Word).toNat) ∧
      State.reset.cfg.valid = false ∧ (0x0014 : CtrlWord).toNat % 16 = 4 ∧ (0x0014 : CtrlWord) ≠ 0x0004 := by
  refine ⟨⟨block 8 [], ?_, ?_⟩, ?_⟩ <;> first | decide | (unfold Configured; decide)

/-- The register of the key, and another. -/
theorem witness_ReadregAfterAdd :
    ∃ s t, Inv s ∧ s.cfg.valid = true ∧ exec (.add 0x0100000000000001) s = next t ∧
      ((1 : Word).toNat < 2 ^ width s ∧ 1 = (0x0100000000000001 : Word) >>> (64 - width s)) ∧
      ((255 : Word).toNat < 2 ^ width s ∧ 255 ≠ (0x0100000000000001 : Word) >>> (64 - width s)) :=
  ⟨_, _, inv_blank (w := 8) (by decide) (by decide) [], rfl, rfl, by decide, by decide⟩

/-! ### Witnesses: the reduction path -/

theorem witness_LookupTable : (63 : Byte).toNat ≤ 63 ∧ 64 ≤ (64 : Byte).toNat ∧ 64 ≤ (255 : Byte).toNat := by decide

/-- A configured block with an index below its register count; a table that differs from entry 64 on. -/
theorem witness_TableInputsStayBelowSixtyFour :
    (∃ s, Inv s ∧ s.cfg.valid = true ∧ 255 < numRegs s) ∧
      ∃ other : Byte → Word, (∀ b : Byte, b.toNat ≤ 63 → other b = lut b) ∧ other 64 ≠ lut 64 :=
  ⟨⟨_, inv_blank (w := 8) (by decide) (by decide) [], rfl, by decide⟩,
    fun b => if b.toNat ≤ 63 then lut b else 1, fun b h => by simp [h], by decide⟩

theorem witness_HarmonicSumIsExact : 20 ≤ 20 := le_rfl

/-- A tree that adds in another order than left to right. -/
theorem witness_TreeShapeIsNotObservable :
    (AdderTree.adder (.term 2) (.adder (.term 0) (.term 1))).inputs.Perm (List.range 3) := by decide

/-- A block with every register 0, and one with every register at its maximum. -/
theorem witness_HarmonicSumBounds :
    (∃ s, Inv s ∧ s.cfg.valid = true ∧ ∀ i, i < numRegs s → s.reg.read i = 0) ∧
      ∃ s, Inv s ∧ s.cfg.valid = true ∧ ∀ i, i < numRegs s → (s.reg.read i).toNat = 65 - width s :=
  ⟨⟨_, inv_blank (w := 20) (by decide) (by decide) [], rfl, fun _ _ => rfl⟩,
    ⟨_, inv_fullBlock, rfl, fun i hi => by rw [fullBlock_read i hi]; rfl⟩⟩

theorem witness_ZeroCountCountsZeroRegisters : 2 ^ 20 ≤ 2 ^ 20 := le_rfl

theorem witness_ReduceResult :
    (∃ s, Configured s ∧ width s = 8) ∧ State.reset.cfg.valid = false ∧ (0x0013 : CtrlWord).toNat % 16 = 3 ∧
      (0x0013 : CtrlWord) ≠ 0x0003 := by
  refine ⟨⟨block 8 [], ?_, ?_⟩, ?_⟩ <;> first | decide | (unfold Configured; decide)

/-- Two REDUCEs with a STATUS and an illegal control word between; and with decoded commands between. -/
theorem witness_ReadsHaveNoSideEffects :
    (∃ s t, exec (.readreg 0) s = next t) ∧
    (∃ (between : List Command) (s t u v : State),
      (∀ c, c ∈ between → (∀ key, decode c ≠ .ok (.add key)) ∧ ∀ w, decode c ≠ .ok (.config w)) ∧
        between = [⟨0x0005, 0⟩, ⟨0x0012, 0⟩] ∧
        exec .reduce s = next t ∧ performAll between t = next u ∧ exec .reduce u = next v) ∧
    ∃ (between : List Instr) (s t u v : State),
      (∀ i, i ∈ between → (∀ key, i ≠ .add key) ∧ ∀ w, i ≠ .config w) ∧ between.length = 2 ∧
        exec .reduce s = next t ∧ execAll between t = next u ∧ exec .reduce u = next v := by
  refine ⟨⟨block 8 [], _, rfl⟩, ⟨[⟨0x0005, 0⟩, ⟨0x0012, 0⟩], block 8 [], _, _, _, ?_, rfl, rfl, rfl, rfl⟩,
    ⟨[.status, .clz 1], State.reset, _, _, _, ?_, rfl, rfl, rfl, rfl⟩⟩
  · intro c hc
    simp only [List.mem_cons, List.not_mem_nil, or_false] at hc
    rcases hc with rfl | rfl
    · rw [show decode ⟨0x0005, 0⟩ = .ok .status from rfl]; exact ⟨nofun, nofun⟩
    · rw [show decode ⟨0x0012, 0⟩ = .error .immediateNotZero from rfl]; exact ⟨nofun, nofun⟩
  · intro i hi
    simp only [List.mem_cons, List.not_mem_nil, or_false] at hi
    rcases hi with rfl | rfl <;> exact ⟨nofun, nofun⟩

/-! ### Witnesses: the host-side estimate -/

theorem witness_EstimateOverExactReals :
    (∃ num : HostNumerics, num.Exact) ∧ (8 ≤ 8 ∧ 8 ≤ 20) ∧ (8 ≤ 20 ∧ 20 ≤ 20) ∧ 0 < 2 ^ 71 ∧ 0 ≤ 2 ^ 8 ∧ 256 ≤ 2 ^ 8 :=
  ⟨exact_numerics_exist, by decide⟩

/-- The block of the rule's example, and an estimate that is a value. -/
theorem witness_EstimateOverflowIsNeverAValue :
    (∃ num : HostNumerics, num.Exact) ∧ (fullBlock.cfg.valid = true ∧ width fullBlock = 8) ∧
      (∀ i, i < 256 → fullBlock.reg.read i = 57) ∧
      ∃ (num : HostNumerics) (value : Word), count num 8 1 1 = .ok value :=
  ⟨exact_numerics_exist, ⟨rfl, rfl⟩, fullBlock_read, ⟨fun _ _ => false, fun _ _ => 7, fun _ _ => 0⟩, 7, rfl⟩

/-- A CONFIG, with a second CONFIG and an illegal ADD before the REDUCE. -/
theorem witness_EstimateBeforeAnyAddIsZero :
    (∃ (num : HostNumerics) (s u : State) (between : List Command), num.Exact ∧ s.cfg.valid = false ∧
      exec (.config 20) s = next u ∧ (∀ c, c ∈ between → ∀ key, decode c ≠ .ok (.add key)) ∧
      between = [⟨0x0091, 0⟩, ⟨0x0012, 0⟩]) ∧
      (0 < 256 ∧ 0 < 1 ∧ 1 ≤ 256 ∧ 256 ≤ 256) := by
  obtain ⟨num, h⟩ := exact_numerics_exist
  refine ⟨⟨num, State.reset, _, _, h, rfl, rfl, fun c hc => ?_, rfl⟩, by decide⟩
  simp only [List.mem_cons, List.not_mem_nil, or_false] at hc
  rcases hc with rfl | rfl
  · rw [show decode ⟨0x0091, 0⟩ = .ok (.config 9) from rfl]; exact nofun
  · rw [show decode ⟨0x0012, 0⟩ = .error .immediateNotZero from rfl]; exact nofun

/-! ### Witnesses: status, rejections, priority -/

/-- A response of each status a clause is about. -/
theorem witness_StatusCodes :
    reply (performCommand ⟨0, 0⟩ State.reset) = some ⟨1, 0, 0, 0⟩ ∧
      reply (performCommand ⟨2, 0⟩ State.reset) = some ⟨2, 0, 0, 0⟩ ∧
      reply (performCommand ⟨0x81, 0⟩ (block 8 [])) = some ⟨3, 0, 0, 0⟩ ∧
      reply (performCommand ⟨0x71, 0⟩ State.reset) = some ⟨4, 0, 0, 0⟩ ∧
      reply (performCommand ⟨7, 0⟩ State.reset) = some ⟨5, 0, 0, 0⟩ := by decide

/-- A rejected command. Also for `RejectionIsRepeatable`. -/
theorem witness_RejectedCommandChangesNothing_RejectionIsRepeatable :
    ∃ (c : Command) (s t : State) (r : Response), performCommand c s = next t ∧ lastResponse t = some r ∧
      r.status ≠ Status.ok.code :=
  ⟨⟨0x0004, 256⟩, block 8 [], _, _, rfl, rfl, by decide⟩

theorem witness_PriorityOfRejections : Inv (withInputs State.reset []) ∧ State.reset.cfg.valid = false ∧
    (block 8 []).cfg.valid = true := ⟨inv_reset [], rfl, rfl⟩

theorem witness_ConfiguredAddAndReduceNeverFail :
    ∃ (s : State) (i j : Instr), Inv s ∧ s.cfg.valid = true ∧ (∃ key, i = .add key) ∧ j = .reduce :=
  ⟨_, .add 0, .reduce, inv_blank (w := 20) (by decide) (by decide) [], rfl, ⟨0, rfl⟩, rfl⟩

/-! ### Witnesses: frames -/

theorem witness_ReadOnlyCommandsFrame :
    ∃ s t u v w x, exec (.readreg 255) s = next t ∧ exec .reduce s = next u ∧ exec .status s = next v ∧
      exec (.clz 1) s = next w ∧ exec (.split 63 1) s = next x :=
  ⟨block 8 [(1, 56)], _, _, _, _, _, rfl, rfl, rfl, rfl, rfl⟩

/-- A cell other than the one the key names, on a configured block; and an unconfigured one. -/
theorem witness_AddFrame :
    (∃ s t, s.reg.wf = true ∧ exec (.add 0) s = next t ∧ 1 ≠ ((0 : Word) >>> (64 - width s)).toNat) ∧
      ∃ s t, s.reg.wf = true ∧ exec (.add 0) s = next t ∧ s.cfg.valid = false :=
  ⟨⟨block 8 [(1, 56)], _, rfl, rfl, by decide⟩, ⟨State.reset, _, rfl, rfl, rfl⟩⟩

theorem witness_ConfigFrame :
    (∃ s t, exec (.config 21) s = next t ∧ s.cfg.valid = true) ∧ (∃ s t, exec (.config 7) s = next t ∧ 7 < 8) ∧
      ∃ s t, exec (.config 20) s = next t ∧ s.cfg.valid = false :=
  ⟨⟨block 8 [], _, rfl, rfl⟩, ⟨State.reset, _, rfl, by decide⟩, ⟨State.reset, _, rfl, rfl⟩⟩

/-- An ADD that changes the array. -/
theorem witness_OnlyConfigAndAddWriteRegisters :
    ∃ s t, Inv s ∧ exec (.add 0) s = next t ∧ t.reg ≠ s.reg :=
  ⟨_, _, inv_blank (w := 8) (by decide) (by decide) [], rfl, by decide⟩

/-! ### Witnesses: the whole machine -/

theorem witness_StepKeepsTheInvariant : Inv (withInputs (block 8 []) [.command ⟨2, 0⟩]) :=
  inv_blank (by decide) (by decide) _

theorem witness_ConfiguredStepsAreMonotone :
    ∃ s t, Inv s ∧ s.cfg.valid = true ∧ ¬ResetNext s ∧ step s = next t :=
  ⟨_, _, inv_blank (w := 8) (by decide) (by decide) [.command ⟨2, 0⟩], rfl, by simp [ResetNext, withInputs], rfl⟩

/-- A step that configures, and a step that unconfigures. -/
theorem witness_WhatChangesConfiguration :
    (∃ s t, step s = next t ∧ s.cfg.valid = false ∧ t.cfg.valid = true) ∧
      (∃ s t, step s = next t ∧ s.cfg.valid = true ∧ t.cfg.valid = false) ∧
      ResetNext (withInputs State.reset [.rst]) ∧ State.reset.cfg.valid = false :=
  ⟨⟨withInputs State.reset [.command ⟨0x0081, 0⟩], _, rfl, rfl, rfl⟩, ⟨withInputs (block 8 []) [.rst], _, rfl, rfl, rfl⟩,
    .inl ⟨_, rfl⟩, rfl⟩

/-- Two blocks after different resets, whose unspecified contents may differ. -/
theorem witness_UnspecifiedCellsAreUnobservable :
    ∃ s t, Inv s ∧ Inv t ∧ SameToHost s t ∧ s.reg ≠ t.reg := by
  have h := inv_reset []
  refine ⟨_, { withInputs State.reset [] with reg := ⟨.unspecified 1, []⟩ }, h, ?_, ?_, ?_⟩
  · exact { h with array := fun h => Bool.noConfusion h, unconfigured := fun _ => ⟨1, rfl⟩, canonical := rfl, port := h.port }
  · exact ⟨rfl, rfl, rfl, rfl, rfl, fun h => Bool.noConfusion h⟩
  · decide

theorem witness_OneResponsePerCommandInOrder :
    ∃ (cmds : List Command) (s : State), Inv s ∧ s.rspReady = true ∧ s.inputs = cmds.map .command ∧ cmds.length = 2 :=
  ⟨[⟨0x0081, 0⟩, ⟨0x0002, 0⟩], _, inv_reset _, rfl, rfl, rfl⟩

end Sys2Proof.Tests
end

section
/-! SUPPORT. The rank of a key is bounded, so that an ADD on a block with the invariant raises one cell to the maximum;
and a step is a reset, a performed command, or a change at the ports alone. -/

namespace Sys2Proof.Machine

open Host.Outcome

/-! ### The rank -/

/-- A nonzero word whose low `w` bits are 0 has a 1 bit at `w` or above, which ends the scan. -/
theorem clz64_shiftLeft_lt {key : Word} {w : Nat} (h : key <<< w ≠ 0) : clz64 (key <<< w) < 64 - w := by
  by_contra hle
  refine h (BitVec.eq_of_getLsbD_eq fun k hk => ?_)
  rw [BitVec.ofNat_eq_ofNat, BitVec.getLsbD_zero]
  by_cases hkw : k < w
  · simp [hkw]
  · have hbit := (clzBelow_spec (key <<< w) 64).1 (63 - k) (by unfold clz64 at hle; omega)
    rwa [show 64 - 1 - (63 - k) = k by omega] at hbit

/-- R78: a rank is at most `65 - w`, the value of the zero remainder. -/
theorem keyRank_le (key : Word) (w : Nat) : keyRank key w ≤ 65 - w := by
  unfold keyRank rank
  split
  · exact Nat.le_refl _
  · next h => have := clz64_shiftLeft_lt h; omega

/-! ### The invariant -/

/-- The invariant does not speak of what the host does next. -/
theorem Inv.withInputs {s : State} (h : Inv s) (inputs : List HostAction) : Inv { s with inputs := inputs } :=
  ⟨h.cfg, h.array, h.unconfigured, h.canonical, h.port, h.offered, h.received⟩

theorem Inv.configured {s : State} (h : Inv s) (hv : s.cfg.valid = true) : Configured s :=
  ⟨hv, h.cfg.1 hv⟩

/-! ### What an ADD does to the array -/

theorem eq_read_of_readCell {s : State} {i : Nat} {old : RegVal} (h : readCell s i = .ok old) : old = s.reg.read i := by
  unfold readCell at h
  split at h
  · exact (Except.ok.inj h).symm
  · cases h

/-- With the invariant, a successful ADD puts the larger of value and rank in the cell its key names, and leaves every
other cell alone (R80, R81). -/
theorem Inv.read_raised {s : State} (h : Inv s) (hv : s.cfg.valid = true) {key : Word} {i : Nat} {old : RegVal}
    (hold : readCell s i = .ok old) (j : Nat) :
    ((raiseCell s i old (keyRank key (width s))).reg.read j).toNat =
      if j = i then max (s.reg.read j).toNat (keyRank key (width s)) else (s.reg.read j).toNat := by
  obtain ⟨-, hw, -⟩ := h.configured hv
  have hrank := keyRank_le key (width s)
  rw [eq_read_of_readCell hold]
  exact raiseCell_read h.canonical i j (by omega)

/-- No command lowers a cell of a configured block with the invariant (R23). -/
theorem Effect.read_mono {i : Instr} {s u : State} (he : Effect i s u) (h : Inv s) (hv : s.cfg.valid = true) (j : Nat) :
    (s.reg.read j).toNat ≤ (u.reg.read j).toNat := by
  cases he with
  | unchanged => exact Nat.le_refl _
  | constructed w _ hv' => rw [hv] at hv'; cases hv'
  | raised key old _ _ _ _ hold =>
    refine le_of_le_of_eq ?_ (h.read_raised (key := key) hv hold j).symm
    split <;> omega

/-! ### The commands that do not read the array -/

/-- The response port does not see the array. -/
theorem respond_withReg (st : Status) (a b : Word) (x : FixSum) (s : State) (reg : Memory) :
    respond st a b x { s with reg := reg } = { respond st a b x s with reg := reg } := by
  unfold respond
  by_cases h : s.rspReady = true
  · rw [offer_of_ready s _ h, offer_of_ready { s with reg := reg } _ h]
  · rw [Bool.not_eq_true] at h
    rw [offer_of_held s _ h, offer_of_held { s with reg := reg } _ h]

/-- STATUS, CLZ and SPLIT give one response, the same for every array (R22). -/
theorem exec_eq_respond_for_every_reg {i : Instr} (s : State)
    (hi : i = .status ∨ (∃ word, i = .clz word) ∨ ∃ n word, i = .split n word) :
    ∃ st a b x, ∀ reg, exec i { s with reg := reg } = next (respond st a b x { s with reg := reg }) := by
  rcases hi with rfl | ⟨word, rfl⟩ | ⟨n, word, rfl⟩
  · exact ⟨.ok, cfgImage s.cfg, 0, 0, fun _ => rfl⟩
  · exact ⟨_, _, _, _, fun _ => rfl⟩
  · simp only [exec, execSplit]
    cases splitWord word n with
    | none => exact ⟨_, _, _, _, fun _ => rfl⟩
    | some halves => exact ⟨_, _, _, _, fun _ => rfl⟩

/-! ### Steps, with a reset and without -/

/-- Where the host asserts `rst` next, the step is the reset (R117). -/
theorem step_of_resetNext {s : State} (h : ResetNext s) :
    ∃ inputs, step s = next (applyReset { s with inputs := inputs }) := by
  obtain ⟨rest, hin⟩ | ⟨hport, c, rest, hin⟩ := h
  · exact ⟨rest, by simp [step, stepPorts, hin]⟩
  · exact ⟨.command c :: rest, by simp [step, stepPorts, hin, acceptCommand, cmdReady, rspValid, hport, waitCommand]⟩

/-- Without a reset, a step performs the command it accepts or leaves CFG and REG alone. -/
theorem step_of_not_resetNext {s t : State} (hr : ¬ResetNext s) (h : step s = next t) :
    (t.cfg = s.cfg ∧ t.reg = s.reg) ∨
      ∃ c rest, s.inputs = .command c :: rest ∧ s.rspPort = none ∧ performCommand c { s with inputs := rest } = next t := by
  obtain ⟨-, e⟩ | ⟨c, rest, hin, hp, e⟩ | ⟨c, rest, r, hin, hp, e⟩ | ⟨rest, hin, -⟩ | ⟨level, rest, -, e⟩ := step_cases s
  · rw [e] at h; cases h; simp
  · exact .inr ⟨c, rest, hin, hp, e ▸ h⟩
  · rw [e] at h; cases h
    obtain ⟨e, -⟩ | ⟨later, rfl, -⟩ | ⟨level, later, -, e⟩ := waitCommand_cases c rest s
    · simp [e]
    · exact absurd (.inr ⟨by simp [hp], c, later, hin⟩) hr
    · simp [e]
  · exact absurd (.inl ⟨rest, hin⟩) hr
  · rw [e] at h; cases h; simp

/-- A command that configures the block is a CONFIG with a legal width (R19). -/
theorem decode_of_performCommand_sets_valid {c : Command} {s t : State} (h : performCommand c s = next t)
    (hs : s.cfg.valid = false) (ht : t.cfg.valid = true) : ∃ w, decode c = .ok (.config w) ∧ 8 ≤ w ∧ w ≤ 20 := by
  obtain ⟨st, a, b, x, u, rfl, hu, -⟩ := performCommand_inv h
  rw [respond_cfg] at ht
  obtain rfl | ⟨i, hd, he⟩ := hu
  · rw [hs] at ht; cases ht
  · cases he with
    | unchanged => rw [hs] at ht; cases ht
    | constructed w hi _ h8 h20 => exact ⟨w, hi ▸ hd, h8, h20⟩
    | raised key old _ hv => rw [hs] at hv; cases hv

/-- While the block is unconfigured, a command that needs a configured one is rejected with NOT_CONFIGURED (R105). -/
theorem exec_notConfigured {i : Instr} {s : State} (hv : s.cfg.valid = false) (hi : needsConfig i = true) :
    exec i s = next (reject .notConfigured s) := by
  cases i with
  | add key => simp [exec, execAdd, hv]
  | reduce => simp [exec, execReduce, hv]
  | readreg index => simp [exec, execReadreg, hv]
  | config w => cases hi
  | status => cases hi
  | clz word => cases hi
  | split n word => cases hi

/-! ### The obligations of 10_state.md -/

/-- Settles O53: the effects of `exec_cases` that touch REG are a CONFIG's and an ADD's, and the response of STATUS, CLZ
and SPLIT is a function of the other fields. -/
theorem onlyConfigAndAddWriteRegisters : Obligations.OnlyConfigAndAddWriteRegisters := by
  unfold Obligations.OnlyConfigAndAddWriteRegisters
  refine ⟨fun i s t hinv h hne => ?_, fun i s other hi => ?_⟩
  · obtain ⟨st, a, b, x, u, rfl, he, -⟩ := exec_cases h
    simp only [respond_reg] at hne ⊢
    cases he with
    | unchanged => exact absurd rfl hne
    | constructed w hi hv h8 h20 => exact .inl ⟨w, hi, hv, h8, h20, Memory.read_cleared⟩
    | raised key old hi hv _ _ hold => exact .inr ⟨key, hi, hv, hinv.read_raised hv hold⟩
  · obtain ⟨st, a, b, x, hexec⟩ := exec_eq_respond_for_every_reg s hi
    exact ⟨_, _, hexec s.reg, hexec other, respond_withReg st a b x s other⟩

/-- Settles O56: without a reset a step changes CFG and REG only through a performed command, and on a configured block
that is at most an ADD's maximum. -/
theorem configuredStepsAreMonotone : Obligations.ConfiguredStepsAreMonotone := by
  unfold Obligations.ConfiguredStepsAreMonotone
  intro s t hinv hv hr h
  obtain ⟨hcfg, hreg⟩ | ⟨c, rest, -, -, hp⟩ := step_of_not_resetNext hr h
  · exact ⟨hcfg, fun j => by rw [hreg]⟩
  · refine ⟨performCommand_cfg (s := { s with inputs := rest }) hp hv, fun j => ?_⟩
    obtain ⟨st, a, b, x, u, rfl, rfl | ⟨i, -, he⟩, -⟩ := performCommand_inv hp
    · simp
    · rw [respond_reg]
      exact he.read_mono (hinv.withInputs rest) hv j

/-- Settles O57: a reset always clears CFG.valid, and without one only a performed command changes CFG, of which a CONFIG
with a legal width sets CFG.valid and none clears it. -/
theorem whatChangesConfiguration : Obligations.WhatChangesConfiguration := by
  unfold Obligations.WhatChangesConfiguration
  refine ⟨fun s t h hs ht => ?_, fun s t h hs ht => ?_, fun s hr => ?_, fun s d hv => ?_⟩
  · have hr : ¬ResetNext s := fun hr => by
      obtain ⟨inputs, e⟩ := step_of_resetNext hr
      rw [e] at h; cases h; cases ht
    obtain ⟨hcfg, -⟩ | ⟨c, rest, hin, hport, hp⟩ := step_of_not_resetNext hr h
    · rw [hcfg, hs] at ht; cases ht
    · obtain ⟨w, hd, hw⟩ := decode_of_performCommand_sets_valid hp hs ht
      exact ⟨c, rest, w, hin, hport, hd, hw⟩
  · by_contra hr
    have hcfg : t.cfg = s.cfg := by
      obtain ⟨hcfg, -⟩ | ⟨c, rest, -, -, hp⟩ := step_of_not_resetNext hr h
      · exact hcfg
      · exact performCommand_cfg (s := { s with inputs := rest }) hp hs
    rw [hcfg, hs] at ht; cases ht
  · obtain ⟨inputs, e⟩ := step_of_resetNext hr
    exact ⟨_, e, rfl⟩
  · exact ⟨exec_notConfigured hv rfl, exec_notConfigured hv rfl, exec_notConfigured hv rfl⟩

end Sys2Proof.Machine
end

section
/-! SUPPORT. The commands between two REDUCEs that are neither an ADD nor a CONFIG keep what a REDUCE reads; and a sequence
of ADDs raises each register to the largest rank of its keys, a maximum over the set of keys. -/

namespace Sys2Proof.Machine

open Host.Outcome

/-! ### Commands that keep CFG and REG -/

/-- A decoded command that is neither a CONFIG nor an ADD changes neither CFG nor REG. -/
theorem exec_keeps {i : Instr} {s t : State} (h : exec i s = next t) (hc : ∀ w, i ≠ .config w)
    (ha : ∀ key, i ≠ .add key) : t.cfg = s.cfg ∧ t.reg = s.reg := by
  obtain ⟨st, a, b, x, u, rfl, he, -⟩ := exec_cases h
  cases he with
  | unchanged => simp
  | constructed w hi => exact absurd hi (hc w)
  | raised key old hi => exact absurd hi (ha key)

/-- The same of a sequence of commands, illegal ones among them. -/
theorem performAll_keeps {cmds : List Command} {s u : State}
    (hcmds : ∀ c, c ∈ cmds → (∀ key, decode c ≠ .ok (.add key)) ∧ ∀ w, decode c ≠ .ok (.config w))
    (h : performAll cmds s = next u) : u.cfg = s.cfg ∧ u.reg = s.reg := by
  induction cmds generalizing s with
  | nil => cases h; exact ⟨rfl, rfl⟩
  | cons c rest ih =>
    obtain ⟨t, hfirst, hrest⟩ := performAll_cons h
    obtain ⟨ha, hc⟩ := hcmds c List.mem_cons_self
    obtain ⟨hcfg, hreg⟩ := performCommand_keeps hfirst hc ha
    obtain ⟨hcfg', hreg'⟩ := ih (fun d hd => hcmds d (List.mem_cons_of_mem c hd)) hrest
    exact ⟨hcfg'.trans hcfg, hreg'.trans hreg⟩

/-- The same of a sequence of decoded commands. -/
theorem execAll_keeps {is : List Instr} {s u : State}
    (his : ∀ i, i ∈ is → (∀ key, i ≠ .add key) ∧ ∀ w, i ≠ .config w)
    (h : execAll is s = next u) : u.cfg = s.cfg ∧ u.reg = s.reg := by
  induction is generalizing s with
  | nil => cases h; exact ⟨rfl, rfl⟩
  | cons i rest ih =>
    obtain ⟨t, hfirst, hrest⟩ := execAll_cons h
    obtain ⟨ha, hc⟩ := his i List.mem_cons_self
    obtain ⟨hcfg, hreg⟩ := exec_keeps hfirst hc ha
    obtain ⟨hcfg', hreg'⟩ := ih (fun j hj => his j (List.mem_cons_of_mem i hj)) hrest
    exact ⟨hcfg'.trans hcfg, hreg'.trans hreg⟩

/-- The response of a REDUCE is a function of CFG and REG (R91). -/
theorem lastResponse_reduce_congr {s t u v : State} (hcfg : u.cfg = s.cfg) (hreg : u.reg = s.reg)
    (ht : exec .reduce s = next t) (hv : exec .reduce u = next v) : lastResponse v = lastResponse t := by
  simp only [exec, execReduce, numRegs, width, hcfg, hreg] at ht hv
  split at ht
  · next hvalid =>
    rw [if_pos hvalid] at hv
    split at ht
    · next hcells =>
      rw [if_pos hcells] at hv
      cases ht; cases hv; simp only [lastResponse_respond]
    · cases ht
  · next hvalid =>
    rw [if_neg hvalid] at hv
    cases ht; cases hv; simp only [lastResponse_reject]

/-! ### The largest rank of a register's keys -/

@[simp] theorem largestRank_nil (w j : Nat) : largestRank [] w j = 0 := rfl

theorem largestRank_cons (key : Word) (keys : List Word) (w j : Nat) :
    largestRank (key :: keys) w j =
      if keyIndex key w = j then max (keyRank key w) (largestRank keys w j) else largestRank keys w j := by
  unfold largestRank
  rw [List.filter_cons]
  by_cases h : keyIndex key w = j <;> simp [h]

/-- The largest rank is the least upper bound of the ranks. -/
theorem largestRank_le_iff (keys : List Word) (w j n : Nat) :
    largestRank keys w j ≤ n ↔ ∀ key, key ∈ keys → keyIndex key w = j → keyRank key w ≤ n := by
  induction keys with
  | nil => simp
  | cons key keys ih =>
    rw [largestRank_cons, List.forall_mem_cons]
    split
    · next h => simp [ih, h]
    · next h => simp [ih, h]

/-- So it depends on the set of keys alone. -/
theorem largestRank_congr {keys keys' : List Word} (h : ∀ key, key ∈ keys ↔ key ∈ keys') (w j : Nat) :
    largestRank keys w j = largestRank keys' w j :=
  eq_of_forall_ge_iff fun n => by simp only [largestRank_le_iff, h]

/-! ### What a sequence of ADDs does -/

/-- At a legal width a key maps to a physical cell (R21, R74). -/
theorem Configured.keyIndex_lt_numCells {s : State} (hc : Configured s) (key : Word) :
    keyIndex key (width s) < Config.numCells := by
  obtain ⟨-, -, h20⟩ := hc
  exact (head_lt key (by omega)).trans_le (Nat.pow_le_pow_right (by omega) h20)

/-- On a configured block an ADD always completes: it raises the register of its key to the key's rank (R81). -/
theorem exec_add_of_configured {s : State} (hc : Configured s) (key : Word) :
    exec (.add key) s = next (respond .ok 0 0 0
      (raiseCell s (keyIndex key (width s)) (s.reg.read (keyIndex key (width s))) (keyRank key (width s)))) := by
  have hread := readCell_eq s (hc.keyIndex_lt_numCells key)
  obtain ⟨hv, h8, h20⟩ := hc
  have hsplit := splitWord_eq key (show 1 ≤ width s by omega) (by omega)
  unfold keyIndex at hread
  simp only [exec, execAdd, if_pos hv, hsplit, hread, keyIndex, keyRank]

/-- What is true of a state `t` that a sequence of ADDs reaches from `s`: each register is at the larger of its old value
and the largest rank of its keys, and the rest of the configuration and the array's form is kept (R42). -/
structure RaisedBy (keys : List Word) (s t : State) : Prop where
  /-- R71. -/
  cfg : t.cfg = s.cfg
  /-- An ADD lists a cell, it does not clear the array. -/
  fill : t.reg.fill = s.reg.fill
  /-- The array's canonical form. -/
  canonical : t.reg.wf = true
  /-- R80, over the sequence. -/
  read : ∀ j, (t.reg.read j).toNat = max (s.reg.read j).toNat (largestRank keys (width s) j)

theorem RaisedBy.nil {s : State} (hwf : s.reg.wf = true) : RaisedBy [] s s :=
  ⟨rfl, rfl, hwf, fun j => by simp⟩

theorem RaisedBy.cons {key : Word} {keys : List Word} {s t u : State} (h : RaisedBy [key] s t)
    (h' : RaisedBy keys t u) : RaisedBy (key :: keys) s u where
  cfg := h'.cfg.trans h.cfg
  fill := h'.fill.trans h.fill
  canonical := h'.canonical
  read j := by
    rw [h'.read, h.read, show width t = width s by rw [width, h.cfg], largestRank_cons, largestRank_cons, largestRank_nil]
    split <;> omega

/-- One ADD. -/
theorem exec_add_raises {s : State} (hc : Configured s) (hwf : s.reg.wf = true) (key : Word) :
    ∃ t, exec (.add key) s = next t ∧ RaisedBy [key] s t := by
  have hcell := hc.keyIndex_lt_numCells key
  have hrank := keyRank_le key (width s)
  refine ⟨_, exec_add_of_configured hc key, by simp, by simp, by simpa using raiseCell_wf hwf hcell _ _, fun j => ?_⟩
  obtain ⟨-, h8, -⟩ := hc
  rw [respond_reg, raiseCell_read hwf _ j (by omega), largestRank_cons, largestRank_nil]
  split <;> split <;> omega

/-- R42: a sequence of ADDs completes, with each register at the larger of its old value and the largest rank. -/
theorem addAll_raises {s : State} (hc : Configured s) (hwf : s.reg.wf = true) (keys : List Word) :
    ∃ t, addAll keys s = next t ∧ RaisedBy keys s t := by
  induction keys generalizing s with
  | nil => exact ⟨s, rfl, .nil hwf⟩
  | cons key keys ih =>
    obtain ⟨t, ht, hst⟩ := exec_add_raises hc hwf key
    have hct : Configured t := by rw [Configured, width, hst.cfg]; exact hc
    obtain ⟨u, hu, htu⟩ := ih hct hst.canonical
    refine ⟨u, ?_, hst.cons htu⟩
    simp only [addAll, List.map_cons, execAll, ht]
    exact hu

/-- Two sequences of ADDs with the same set of keys leave the same array. -/
theorem RaisedBy.reg_eq {keys keys' : List Word} {s t t' : State} (h : RaisedBy keys s t) (h' : RaisedBy keys' s t')
    (hkeys : ∀ key, key ∈ keys ↔ key ∈ keys') : t'.reg = t.reg :=
  Memory.ext_of_read h'.canonical h.canonical (h'.fill.trans h.fill.symm) fun j =>
    BitVec.eq_of_toNat_eq (by rw [h'.read, h.read, largestRank_congr hkeys])

/-! ### The obligations of 20_memory.md -/

/-- Settles O31: a sequence of ADDs leaves maxima of ranks, which depend on the set of keys alone; a repeated key is the
same set. -/
theorem addsAreOrderIndependentMaxima : Obligations.AddsAreOrderIndependentMaxima := by
  unfold Obligations.AddsAreOrderIndependentMaxima
  intro s hinv hv
  have hadd := addAll_raises (hinv.configured hv) hinv.canonical
  refine ⟨fun key => ?_, fun keys => ?_⟩
  · obtain ⟨t, ht, honce⟩ := hadd [key]
    obtain ⟨t', ht', htwice⟩ := hadd [key, key]
    exact ⟨t, t', ht, ht', honce.reg_eq htwice (by simp)⟩
  · obtain ⟨t, ht, hraised⟩ := hadd keys
    refine ⟨t, ht, hraised.cfg, hraised.read, fun keys' hkeys => ?_⟩
    obtain ⟨t', ht', hraised'⟩ := hadd keys'
    exact ⟨t', ht', hraised.reg_eq hraised' hkeys, hraised'.cfg.trans hraised.cfg.symm⟩

/-- Settles O41: the first REDUCE and the commands between keep CFG and REG, which are all that the response of the second
depends on. -/
theorem readsHaveNoSideEffects : Obligations.ReadsHaveNoSideEffects := by
  unfold Obligations.ReadsHaveNoSideEffects
  refine ⟨fun s t h => ?_, fun between s t u v hbetween ht hu hv => ?_, fun between s t u v hbetween ht hu hv => ?_⟩
  · obtain ⟨index, h⟩ | h := h
    · exact exec_keeps h nofun nofun
    · exact exec_keeps h nofun nofun
  · obtain ⟨hcfg, hreg⟩ := exec_keeps ht nofun nofun
    obtain ⟨hcfg', hreg'⟩ := performAll_keeps hbetween hu
    exact lastResponse_reduce_congr (hcfg'.trans hcfg) (hreg'.trans hreg) ht hv
  · obtain ⟨hcfg, hreg⟩ := exec_keeps ht nofun nofun
    obtain ⟨hcfg', hreg'⟩ := execAll_keeps hbetween hu
    exact lastResponse_reduce_congr (hcfg'.trans hcfg) (hreg'.trans hreg) ht hv

end Sys2Proof.Machine
end

section
/-! SUPPORT. The decoder by the fields of a control word, as an equation per opcode and a condition for illegality; and
the status of every legal command's response. -/

namespace Sys2Proof

/-! ### What the decoder answers -/

section
variable {c : Command} (hrsv : rsvField c.cw = 0)
include hrsv

theorem decode_of_op_config (hop : opField c.cw = 1) : decode c = .ok (.config (immField c.cw)) := by
  simp [decode, hrsv, hop]

theorem decode_of_op_split (hop : opField c.cw = 7) : decode c = .ok (.split (immField c.cw) c.d) := by
  simp [decode, hrsv, hop]

variable (himm : immField c.cw = 0)
include himm

theorem decode_of_op_add (hop : opField c.cw = 2) : decode c = .ok (.add c.d) := by
  simp [decode, withoutImmediate, hrsv, himm, hop]

theorem decode_of_op_readreg (hop : opField c.cw = 4) : decode c = .ok (.readreg c.d) := by
  simp [decode, withoutImmediate, hrsv, himm, hop]

theorem decode_of_op_clz (hop : opField c.cw = 6) : decode c = .ok (.clz c.d) := by
  simp [decode, withoutImmediate, hrsv, himm, hop]

end

/-- R54: the control words that spell no command. -/
theorem decode_eq_error_iff (c : Command) :
    (∃ e, decode c = .error e) ↔
      opField c.cw = 0 ∨ 8 ≤ opField c.cw ∨ rsvField c.cw ≠ 0 ∨
        ((opField c.cw = 2 ∨ opField c.cw = 3 ∨ opField c.cw = 4 ∨ opField c.cw = 5 ∨ opField c.cw = 6) ∧
          immField c.cw ≠ 0) := by
  have legal {i : Instr} (e : decode c = .ok i) : ¬∃ e, decode c = .error e := by simp [e]
  obtain ⟨hrsv, h | h | ⟨himm, h⟩ | ⟨himm, h2, h6, e⟩ | ⟨hop, e⟩⟩ | ⟨hrsv, e⟩ := decode_cases c
  · exact iff_of_false (legal h.2) (by omega)
  · exact iff_of_false (legal h.2) (by omega)
  · rcases h with h | h | h | h | h <;> exact iff_of_false (legal h.2) (by omega)
  · exact iff_of_true ⟨_, e⟩ (by omega)
  · exact iff_of_true ⟨_, e⟩ (by omega)
  · exact iff_of_true ⟨_, e⟩ (.inr (.inr (.inl hrsv)))

/-- What the decoder answers is a command the encoding can spell (R51). -/
theorem wellFormed_of_decode {c : Command} {i : Instr} (h : decode c = .ok i) : i.wellFormed = true := by
  have hle := immField_le c.cw
  obtain ⟨-, ⟨-, e⟩ | ⟨-, e⟩ | ⟨-, e⟩ | ⟨-, -, -, e⟩ | ⟨-, e⟩⟩ | ⟨-, e⟩ := decode_cases c
  · rw [e] at h; cases h; exact decide_eq_true hle
  · rw [e] at h; cases h; exact decide_eq_true hle
  · rcases e with ⟨-, e⟩ | ⟨-, e⟩ | ⟨-, e⟩ | ⟨-, e⟩ | ⟨-, e⟩ <;> rw [e] at h <;> cases h <;> rfl
  · rw [e] at h; cases h
  · rw [e] at h; cases h
  · rw [e] at h; cases h

/-- R52: the data word of CONFIG, REDUCE and STATUS does not reach the decoded command. -/
theorem decode_ignores_data {cw : CtrlWord} (hop : opField cw = 1 ∨ opField cw = 3 ∨ opField cw = 5) (d d' : Word) :
    decode ⟨cw, d⟩ = decode ⟨cw, d'⟩ := by
  rcases hop with hop | hop | hop <;> simp only [decode, hop]

end Sys2Proof

namespace Sys2Proof.Machine

open Host.Outcome

/-! ### What a performed command does -/

theorem performCommand_of_error {c : Command} {e : Illegal} (h : decode c = .error e) (s : State) :
    performCommand c s = next (reject .illegal s) := by
  simp [performCommand, h]

theorem performCommand_of_ok {c : Command} {i : Instr} (h : decode c = .ok i) (s : State) :
    performCommand c s = exec i s := by
  simp [performCommand, h]

/-- R107, on an unconfigured block. -/
theorem exec_config_badWidth {w : Nat} {s : State} (hv : s.cfg.valid = false) (hw : w < 8 ∨ 20 < w) :
    exec (.config w) s = next (reject .badWidth s) := by
  have hl : ¬legalWidth w = true := by rw [legalWidth_iff]; omega
  simp [exec, execConfig, hv, hl]

/-- R108. -/
theorem exec_split_zero (word : Word) (s : State) : exec (.split 0 word) s = next (reject .badArg s) := rfl

/-! ### The status of a response -/

/-- R106. -/
theorem exec_alreadyConfigured {i : Instr} {s : State} (hv : s.cfg.valid = true) (hi : needsUnconfigured i = true) :
    exec i s = next (reject .alreadyConfigured s) := by
  cases i with
  | config w => simp [exec, execConfig, hv]
  | add key => cases hi
  | reduce => cases hi
  | readreg index => cases hi
  | status => cases hi
  | clz word => cases hi
  | split n word => cases hi

/-- R107, R108: a command that finds the configuration state it needs is answered by its operand's value. -/
theorem exec_status_by_value {i : Instr} {s t : State} (hwf : i.wellFormed = true)
    (hc : ¬(needsConfig i = true ∧ s.cfg.valid = false)) (hu : ¬(needsUnconfigured i = true ∧ s.cfg.valid = true))
    (h : exec i s = next t) : ∃ a b x u, t = respond ((valueError s i).getD .ok) a b x u := by
  cases i with
  | config w =>
    have hv : ¬s.cfg.valid = true := fun hv => hu ⟨rfl, hv⟩
    simp only [exec, execConfig, if_neg hv, legalWidth_iff] at h
    simp only [valueError]
    split at h
    · next hw => cases h; rw [if_pos hw]; exact ⟨_, _, _, _, rfl⟩
    · next hw => cases h; rw [if_neg hw]; exact ⟨_, _, _, _, rfl⟩
  | add key =>
    have hv : s.cfg.valid = true := by simpa [needsConfig] using hc
    simp only [exec, execAdd, if_pos hv] at h
    split at h
    · cases h
    · split at h
      · cases h
      · cases h; exact ⟨_, _, _, _, rfl⟩
  | reduce =>
    have hv : s.cfg.valid = true := by simpa [needsConfig] using hc
    simp only [exec, execReduce, if_pos hv] at h
    split at h
    · cases h; exact ⟨_, _, _, _, rfl⟩
    · cases h
  | readreg index =>
    have hv : s.cfg.valid = true := by simpa [needsConfig] using hc
    simp only [exec, execReadreg, if_pos hv] at h
    simp only [valueError]
    split at h
    · next hi =>
      rw [if_pos hi]
      split at h
      · cases h
      · cases h; exact ⟨_, _, _, _, rfl⟩
    · next hi => cases h; rw [if_neg hi]; exact ⟨_, _, _, _, rfl⟩
  | status => cases h; exact ⟨_, _, _, _, rfl⟩
  | clz word => cases h; exact ⟨_, _, _, _, rfl⟩
  | split n word =>
    have hn : n ≤ 63 := of_decide_eq_true hwf
    by_cases h0 : n = 0
    · subst h0; cases h; exact ⟨_, _, _, _, rfl⟩
    · simp only [exec, execSplit, splitWord_eq word (show 1 ≤ n by omega) hn] at h
      cases h
      simp only [valueError, if_neg h0]
      exact ⟨_, _, _, _, rfl⟩

/-- R110: a legal command that gives a next state is answered with the status that the order of the checks says. -/
theorem exec_status {c : Command} {i : Instr} {s t : State} (hd : decode c = .ok i) (h : exec i s = next t) :
    ∃ a b x u, t = respond (expectedStatus c s) a b x u := by
  simp only [expectedStatus, hd]
  split
  · next hc => rw [exec_notConfigured hc.2 hc.1] at h; cases h; exact ⟨_, _, _, _, rfl⟩
  · next hc =>
    split
    · next hu => rw [exec_alreadyConfigured hu.2 hu.1] at h; cases h; exact ⟨_, _, _, _, rfl⟩
    · next hu => exact exec_status_by_value (wellFormed_of_decode hd) hc hu h

theorem valueError_ne_illegal (s : State) (i : Instr) : valueError s i ≠ some .illegal := by
  cases i with
  | config w => simp only [valueError]; split <;> nofun
  | readreg index => simp only [valueError]; split <;> nofun
  | split n word => simp only [valueError]; split <;> nofun
  | add key => nofun
  | reduce => nofun
  | status => nofun
  | clz word => nofun

/-- R104: a legal command is not answered with ILLEGAL. -/
theorem expectedStatus_ne_illegal {c : Command} {i : Instr} (hd : decode c = .ok i) (s : State) :
    expectedStatus c s ≠ .illegal := by
  simp only [expectedStatus, hd]
  split
  · nofun
  · split
    · nofun
    · have hne := valueError_ne_illegal s i
      cases hv : valueError s i with
      | none => nofun
      | some st => exact fun h => hne (hv.trans (congrArg some h))

theorem Status.code_eq_illegal_iff (st : Status) : st.code = Status.illegal.code ↔ st = .illegal := by
  cases st <;> decide

/-! ### The obligations of 30_encoding.md -/

/-- Settles O4: the illegal control words are those of `decode_eq_error_iff`; a legal one is answered with the status of
`expectedStatus`, which is not ILLEGAL. -/
theorem illegalControlWordsAndTheirRejection : Obligations.IllegalControlWordsAndTheirRejection := by
  unfold Obligations.IllegalControlWordsAndTheirRejection
  intro c s
  simp only [← opField_eq, ← immField_eq, ← rsvField_eq, ← decode_eq_error_iff]
  have legal : (¬∃ e, decode c = .error e) → ∃ i, decode c = .ok i := by cases decode c <;> simp
  refine ⟨fun h => ?_, legal, fun h t r ht hr => ?_, fun hrsv hop hw hv => ?_, fun hrsv hop himm => ?_⟩
  · obtain ⟨e, he⟩ := h
    exact ⟨⟨e, he⟩, performCommand_of_error he s⟩
  · obtain ⟨i, hi⟩ := legal h
    rw [performCommand_of_ok hi] at ht
    obtain ⟨a, b, x, u, rfl⟩ := exec_status hi ht
    rw [lastResponse_respond] at hr
    cases hr
    exact mt (Status.code_eq_illegal_iff _).1 (expectedStatus_ne_illegal hi s)
  · rw [performCommand_of_ok (decode_of_op_config hrsv hop)]
    exact exec_config_badWidth hv hw
  · rw [performCommand_of_ok (decode_of_op_split hrsv hop), himm]
    exact exec_split_zero c.d s

/-- Settles O6: with `rsv = 0` the immediate field is the number in `CW[9:4]`, and each clause is the decoder's equation
for its opcode. -/
theorem immediateAndDataOperands : Obligations.ImmediateAndDataOperands := by
  unfold Obligations.ImmediateAndDataOperands
  intro cw d d' s hrsv
  have himm : cw.toNat / 16 = immField cw := by rw [immField_eq]; omega
  rw [← rsvField_eq] at hrsv
  simp only [himm, ← opField_eq]
  refine ⟨decode_of_op_config (c := ⟨cw, d⟩) hrsv, decode_of_op_split (c := ⟨cw, d⟩) hrsv,
    fun hop h => decode_of_op_add (c := ⟨cw, d⟩) hrsv h hop,
    fun hop h => decode_of_op_readreg (c := ⟨cw, d⟩) hrsv h hop,
    fun hop h => decode_of_op_clz (c := ⟨cw, d⟩) hrsv h hop,
    fun hop h => (decode_eq_error_iff ⟨cw, d⟩).2 (.inr (.inr (.inr ⟨hop, h⟩))), fun hop => ?_⟩
  unfold performCommand
  rw [decode_ignores_data hop d d']

/-- Settles O2: each line is read, ranged and encoded by evaluation. -/
theorem encodingsWrittenOutInTheSpec : Obligations.EncodingsWrittenOutInTheSpec := by
  unfold Obligations.EncodingsWrittenOutInTheSpec
  decide +kernel

end Sys2Proof.Machine
end

section
/-! SUPPORT. The leading-zero count by the highest set bit and by halves, the two halves of a split as numbers and bit
for bit, and the control words of CLZ and SPLIT. -/

namespace Sys2Proof

/-! ### The fields of a control word written as `(imm6 << 4) | op` -/

variable {n op : Nat}

theorem rsvField_ofNat (hn : n ≤ 63) (hop : op < 16) : rsvField (BitVec.ofNat 16 (n * 16 + op)) = 0 := by
  rw [rsvField_eq, BitVec.toNat_ofNat]; omega

theorem immField_ofNat (hn : n ≤ 63) (hop : op < 16) : immField (BitVec.ofNat 16 (n * 16 + op)) = n := by
  rw [immField_eq, BitVec.toNat_ofNat]; omega

theorem opField_ofNat (hop : op < 16) : opField (BitVec.ofNat 16 (n * 16 + op)) = op := by
  rw [opField_eq, BitVec.toNat_ofNat]; omega

end Sys2Proof

namespace Sys2Proof.Machine

open Host.Outcome

/-! ### The leading-zero count -/

theorem clz64_le (w : Word) : clz64 w ≤ 64 := clzBelow_le w 64

theorem clz64_zero : clz64 0 = 64 :=
  clzBelow_unique (Nat.le_refl 64) (fun _ _ => BitVec.getLsbD_zero) (fun h => absurd h (Nat.lt_irrefl 64))

/-- R61: the highest set bit is where the scan stops. -/
theorem clz64_of_highest {w : Word} {i : Nat} (hset : w.getLsbD i = true)
    (habove : ∀ j, i < j → w.getLsbD j = false) : clz64 w = 63 - i := by
  have hi : i < 64 := BitVec.lt_of_getLsbD hset
  refine clzBelow_unique (by omega) (fun j hj => habove _ (by omega)) fun _ => ?_
  rwa [show 64 - 1 - (63 - i) = i by omega]

theorem clzBelow_succ (w : Word) (k : Nat) :
    clzBelow w (k + 1) = if w.getLsbD k = true then 0 else clzBelow w k + 1 := rfl

/-- R62: a scan of `a + b` bits is the scan of the upper `b`, and of the lower `a` too only when those are all 0. -/
theorem clzBelow_add (w : Word) (a b : Nat) :
    clzBelow w (a + b) =
      if clzBelow (w >>> a) b = b then b + clzBelow w a else clzBelow (w >>> a) b := by
  induction b with
  | zero => simp [clzBelow]
  | succ b ih =>
    have hbit : (w >>> a).getLsbD b = w.getLsbD (a + b) := BitVec.getLsbD_ushiftRight w a b
    rw [← Nat.add_assoc, clzBelow_succ, clzBelow_succ, hbit, ih]
    cases w.getLsbD (a + b) with
    | true => simp
    | false =>
      by_cases hzero : clzBelow (w >>> a) b = b
      · simp [hzero, Nat.add_right_comm]
      · simp [hzero]

/-- The tree over the `2^k` bits from `lo` up scans them. -/
theorem clzTree_eq_clzBelow (w : Word) (k lo : Nat) : clzTree w k lo = clzBelow (w >>> lo) (2 ^ k) := by
  induction k generalizing lo with
  | zero => simp [clzTree, clzBelow]
  | succ k ih => rw [clzTree, ih, ih, BitVec.shiftRight_add, pow_succ, Nat.mul_two, clzBelow_add]

/-! ### The split -/

/-- The head is a quotient. -/
theorem ushiftRight_eq_ofNat (w : Word) (n : Nat) : w >>> n = BitVec.ofNat 64 (w.toNat / 2 ^ n) := by
  rw [← Nat.shiftRight_eq_div_pow, ← BitVec.toNat_ushiftRight, BitVec.ofNat_toNat, BitVec.setWidth_eq]

/-- The tail is a product, without the bits above the word. -/
theorem shiftLeft_eq_ofNat (w : Word) (n : Nat) : w <<< n = BitVec.ofNat 64 (w.toNat * 2 ^ n) := by
  rw [← Nat.shiftLeft_eq]; rfl

/-- The low `n` bits of a tail are 0. -/
theorem tail_mod_two_pow (w : Word) {n : Nat} (hn : n ≤ 64) : (w <<< n).toNat % 2 ^ n = 0 := by
  rw [BitVec.toNat_shiftLeft, Nat.shiftLeft_eq, Nat.mod_mod_of_dvd _ (Nat.pow_dvd_pow 2 hn), Nat.mul_mod_left]

/-- The bits of a tail from `n` up are the low bits of the word. -/
theorem getLsbD_tail_add (w : Word) {n i : Nat} (hi : i < 64 - n) : (w <<< n).getLsbD (n + i) = w.getLsbD i := by
  rw [BitVec.getLsbD_shiftLeft, Nat.add_sub_cancel_left, decide_eq_true (show n + i < 64 by omega),
    decide_eq_false (show ¬n + i < n by omega)]
  rfl

/-- The head put back in its place has the bits of the word from `64 - n` up. -/
theorem getLsbD_head_replaced (w : Word) (n k : Nat) :
    (w >>> (64 - n) <<< (64 - n)).getLsbD k = (decide (64 - n ≤ k) && w.getLsbD k) := by
  by_cases hk : 64 - n ≤ k
  · by_cases hk64 : k < 64
    · simp [hk, hk64, show ¬k < 64 - n by omega]
    · simp [BitVec.getLsbD_of_ge, show 64 ≤ k by omega]
  · simp [hk, show k < 64 - n by omega]

/-- The tail put back in its place has the bits of the word below `64 - n`. -/
theorem getLsbD_tail_replaced (w : Word) (n k : Nat) :
    (w <<< n >>> n).getLsbD k = (decide (k < 64 - n) && w.getLsbD k) := by
  by_cases hk : k < 64 - n
  · rw [BitVec.getLsbD_ushiftRight, getLsbD_tail_add w hk, decide_eq_true hk, Bool.true_and]
  · simp [hk, show ¬n + k < 64 by omega]

theorem head_or_tail_replaced (w : Word) (n : Nat) : w >>> (64 - n) <<< (64 - n) ||| w <<< n >>> n = w := by
  refine BitVec.eq_of_getLsbD_eq fun k _ => ?_
  rw [BitVec.getLsbD_or, getLsbD_head_replaced, getLsbD_tail_replaced]
  by_cases hk : k < 64 - n
  · simp [hk, show ¬64 - n ≤ k by omega]
  · simp [hk, show 64 - n ≤ k by omega]

theorem head_and_tail_replaced (w : Word) (n : Nat) : w >>> (64 - n) <<< (64 - n) &&& w <<< n >>> n = 0 := by
  refine BitVec.eq_of_getLsbD_eq fun k _ => ?_
  rw [BitVec.getLsbD_and, getLsbD_head_replaced, getLsbD_tail_replaced]
  by_cases hk : k < 64 - n
  · simp [show ¬64 - n ≤ k by omega]
  · simp [hk]

/-! ### The commands CLZ and SPLIT -/

theorem exec_clz (word : Word) (s : State) :
    exec (.clz word) s = next (respond .ok (BitVec.ofNat 64 (clz64 word)) 0 0 s) := rfl

/-- R68, where the split is defined. -/
theorem exec_split_of_defined {n : Nat} (h1 : 1 ≤ n) (h63 : n ≤ 63) (word : Word) (s : State) :
    exec (.split n word) s = next (respond .ok (word >>> (64 - n)) (word <<< n) 0 s) := by
  simp only [exec, execSplit, splitWord_eq word h1 h63]

/-- R54: a control word with reserved bits is rejected. -/
theorem performCommand_of_reserved {c : Command} (h : 1024 ≤ c.cw.toNat) (s : State) :
    performCommand c s = next (reject .illegal s) := by
  have hrsv : rsvField c.cw ≠ 0 := by rw [rsvField_eq]; omega
  obtain ⟨e, he⟩ := (decode_eq_error_iff c).2 (.inr (.inr (.inl hrsv)))
  exact performCommand_of_error he s

/-! ### The obligations of 40_bit_utilities.md -/

/-- Settles O12: the scan stops at the highest set bit. -/
theorem clzCountsFromTheTop : Obligations.ClzCountsFromTheTop := by
  unfold Obligations.ClzCountsFromTheTop
  exact ⟨clz64_zero, fun w i _ hset habove => clz64_of_highest hset habove, clz64_le⟩

/-- Settles O13: the tree over `2^k` bits is the scan of those bits, which goes by halves. -/
theorem clzTreeGivesClz : Obligations.ClzTreeGivesClz := by
  unfold Obligations.ClzTreeGivesClz
  refine ⟨fun w lo => rfl, fun w k lo => rfl, fun w => ?_⟩
  rw [clzTree_eq_clzBelow, BitVec.ushiftRight_zero]
  rfl

/-- Settles O14: the count is 63 less the place of the highest set bit, which is below 64. -/
theorem clzProperties : Obligations.ClzProperties := by
  unfold Obligations.ClzProperties
  refine ⟨clz64_zero, fun w h => ?_, fun msb hmsb w w' hw hw' => ?_⟩
  · exact clz64_of_highest h fun j hj => BitVec.getLsbD_of_ge w j hj
  · obtain ⟨hset, habove⟩ := hmsb w hw
    obtain ⟨hset', habove'⟩ := hmsb w' hw'
    have hlt := BitVec.lt_of_getLsbD hset
    rw [clz64_of_highest hset habove, clz64_of_highest hset' habove']
    omega

/-- Settles O15: the bits of a shifted word. -/
theorem splitHeadAndTail : Obligations.SplitHeadAndTail := by
  unfold Obligations.SplitHeadAndTail
  intro w n h1 h63
  refine ⟨_, _, splitWord_eq w h1 h63, rfl, rfl, head_lt w (by omega), fun i hi => ?_,
    fun i _ => BitVec.getLsbD_ushiftRight w (64 - n) i, fun i hi => getLsbD_tail_add w hi⟩
  simp [hi]

/-- Settles O16: put back in their places, head and tail have the two complementary parts of the word's bits, so their
sum is their disjunction. -/
theorem splitRoundTrip : Obligations.SplitRoundTrip := by
  unfold Obligations.SplitRoundTrip
  intro w n h1 h63
  have hor := head_or_tail_replaced w n
  have hand := head_and_tail_replaced w n
  refine ⟨_, _, splitWord_eq w h1 h63, head_lt w (by omega), tail_mod_two_pow w (by omega), hor, hand, ?_⟩
  rw [BitVec.add_eq_or_of_and_eq_zero _ _ hand, hor]

/-- Settles O17: a decoded split point fits the immediate, and with the invariant ADD splits at a legal width. -/
theorem undefinedSplitsGetNoValue : Obligations.UndefinedSplitsGetNoValue := by
  unfold Obligations.UndefinedSplitsGetNoValue
  refine ⟨fun w => ⟨splitWord_eq_none w (by omega), splitWord_eq_none w (by omega)⟩, exec_split_zero,
    fun c n w hd => ?_, fun s key hinv hv => ?_⟩
  · exact of_decide_eq_true (wellFormed_of_decode hd)
  · have hc := hinv.configured hv
    refine ⟨?_, by rw [exec_add_of_configured hc]; nofun⟩
    obtain ⟨-, h8, h20⟩ := hc
    rw [splitWord_eq key (by omega) (by omega)]
    rfl

/-- Settles O18: the count is `clz64`, pinned by the scan's spec; a control word of CLZ that is not 0x0006 has a nonzero
immediate or reserved bits. -/
theorem clzCommandResult : Obligations.ClzCommandResult := by
  unfold Obligations.ClzCommandResult
  refine ⟨fun word s => ?_, fun word => ?_, fun c s hop hne => ?_⟩
  · obtain ⟨hzeros, hone⟩ := clzBelow_spec word 64
    exact ⟨clz64 word, exec_clz word s, clz64_le word, hzeros, hone⟩
  · have hrsv : rsvField 0x0006 = 0 := by decide
    have himm : immField 0x0006 = 0 := by decide
    have hop : opField 0x0006 = 6 := by decide
    exact decode_of_op_clz (c := ⟨0x0006, word⟩) hrsv himm hop
  · have hne' : c.cw.toNat ≠ 6 := fun h => hne (BitVec.eq_of_toNat_eq h)
    obtain ⟨e, he⟩ := (decode_eq_error_iff c).2 (by rw [opField_eq, immField_eq, rsvField_eq]; omega)
    exact performCommand_of_error he s

/-- Settles O19: the halves of the split as a quotient and a product, and the fields of its control word. -/
theorem splitCommandResult : Obligations.SplitCommandResult := by
  unfold Obligations.SplitCommandResult
  refine ⟨fun n word s h63 => ?_, fun n word h63 => ?_, fun c s _ hrsv => performCommand_of_reserved hrsv s⟩
  · by_cases h0 : n = 0
    · subst h0
      exact exec_split_zero word s
    · rw [if_neg h0, exec_split_of_defined (by omega) h63, ushiftRight_eq_ofNat, shiftLeft_eq_ofNat]
  · have hd := decode_of_op_split (c := ⟨BitVec.ofNat 16 (n * 16 + 7), word⟩)
      (rsvField_ofNat h63 (by decide)) (opField_ofNat (by decide))
    rwa [immField_ofNat h63 (by decide)] at hd

end Sys2Proof.Machine
end

section
/-! SUPPORT. Construction: what CONFIG answers on an unconfigured block, the configuration image bit for bit and as a
number, and the control words of the commands that take no immediate. -/

namespace Sys2Proof

theorem decode_of_op_status {c : Command} (hrsv : rsvField c.cw = 0) (himm : immField c.cw = 0)
    (hop : opField c.cw = 5) : decode c = .ok .status := by
  simp [decode, withoutImmediate, hrsv, himm, hop]

end Sys2Proof

namespace Sys2Proof.Machine

open Host.Outcome

/-! ### CONFIG -/

/-- R69, on an unconfigured block. -/
theorem exec_config_of_legal {w : Nat} {s : State} (hv : s.cfg.valid = false) (h8 : 8 ≤ w) (h20 : w ≤ 20) :
    exec (.config w) s = next (respond .ok 0 0 0 (construct w s)) := by
  simp [exec, execConfig, hv, (legalWidth_iff w).2 ⟨h8, h20⟩]

/-- R70: CFG.W has room for every legal width. -/
theorem width_construct {w : Nat} (h20 : w ≤ 20) (s : State) : width (construct w s) = w := by
  rw [width, construct_cfg, BitVec.toNat_ofNat]
  exact Nat.mod_eq_of_lt (by omega)

/-! ### STATUS -/

theorem exec_status_eq (s : State) : exec .status s = next (respond .ok (cfgImage s.cfg) 0 0 s) := rfl

/-- R29, bit by bit. -/
theorem getLsbD_cfgImage (c : Cfg) (i : Nat) :
    (cfgImage c).getLsbD i = if i < 5 then c.w.getLsbD i else decide (i = 8) && c.valid := by
  rw [cfgImage, BitVec.getLsbD_setWidth, BitVec.getLsbD_append, BitVec.getLsbD_append, bitOf, BitVec.getLsbD_ofBool]
  by_cases h5 : i < 5
  · simp only [h5, show i < 64 by omega, decide_true, Bool.true_and, if_true]
  · rw [if_neg h5, if_neg h5]
    by_cases h8 : i = 8
    · subst h8; rfl
    · by_cases h3 : i - 5 < 3
      · simp [h3, h8]
      · simp [h3, h8, show i - 5 - 3 ≠ 0 by omega]

/-- R29, as a number. -/
theorem toNat_cfgImage (c : Cfg) : (cfgImage c).toNat = c.w.toNat + if c.valid then 256 else 0 := by
  have hw := c.w.isLt
  rw [cfgImage, BitVec.toNat_setWidth, BitVec.toNat_append, Nat.shiftLeft_eq, Nat.mul_comm,
    ← Nat.two_pow_add_eq_or_of_lt hw]
  cases c.valid with
  | false => rw [show (bitOf false ++ (0 : BitVec 3)).toNat = 0 from rfl, if_neg Bool.false_ne_true]; omega
  | true => rw [show (bitOf true ++ (0 : BitVec 3)).toNat = 8 from rfl, if_pos rfl]; omega

/-- R20, R73: the image of a block that no CONFIG has configured. -/
theorem Inv.cfgImage_eq_zero {s : State} (h : Inv s) (hv : s.cfg.valid = false) : cfgImage s.cfg = 0 := by
  refine BitVec.eq_of_toNat_eq ?_
  rw [toNat_cfgImage, hv, h.cfg.2 hv]
  rfl

/-! ### Control words with an immediate where none is allowed -/

/-- R54: a control word of ADD, REDUCE, READREG, STATUS or CLZ with any other field not 0 is rejected. -/
theorem performCommand_of_immediate_or_reserved {c : Command} (h2 : 2 ≤ c.cw.toNat % 16) (h6 : c.cw.toNat % 16 ≤ 6)
    (hne : c.cw.toNat ≠ c.cw.toNat % 16) (s : State) : performCommand c s = next (reject .illegal s) := by
  obtain ⟨e, he⟩ := (decode_eq_error_iff c).2 (by rw [opField_eq, immField_eq, rsvField_eq]; omega)
  exact performCommand_of_error he s

/-! ### The obligations of 41_construction.md -/

/-- Settles O20: the constructed state is `construct w s`; each rejection is its rule's lemma, and the control word is
read back field by field. -/
theorem configConstructsOrRejects : Obligations.ConfigConstructsOrRejects := by
  unfold Obligations.ConfigConstructsOrRejects
  refine ⟨fun w s hv h8 h20 => ?_, fun w s => exec_config_badWidth, fun w s hv => exec_alreadyConfigured hv rfl,
    fun w d h63 => ?_, fun c s _ hrsv => performCommand_of_reserved hrsv s⟩
  · exact ⟨construct w s, exec_config_of_legal hv h8 h20, rfl, width_construct h20 s, Memory.read_cleared,
      Memory.cleared_wf, rfl, rfl, rfl, rfl, rfl⟩
  · have hd := decode_of_op_config (c := ⟨BitVec.ofNat 16 (w * 16 + 1), d⟩)
      (rsvField_ofNat h63 (by decide)) (opField_ofNat (by decide))
    rwa [immField_ofNat h63 (by decide)] at hd

/-- Settles O21: a legal width constructs with that very width, every other is rejected with the state as it was. -/
theorem widthCheckNeverClamps : Obligations.WidthCheckNeverClamps := by
  unfold Obligations.WidthCheckNeverClamps
  intro w s hv
  by_cases hw : 8 ≤ w ∧ w ≤ 20
  · refine ⟨_, _, exec_config_of_legal hv hw.1 hw.2, lastResponse_respond _ _ _ _ _, iff_of_true rfl hw, fun _ => ?_,
      fun hbad => by omega⟩
    rw [respond_cfg]
    exact width_construct hw.2 s
  · exact ⟨_, _, exec_config_badWidth hv (by omega), lastResponse_reject _ _, iff_of_false (by decide) hw,
      fun h => absurd h hw, fun _ => rfl⟩

/-- Settles O23: the rejection keeps CFG, so the invariant's width 0 and the rejections of an unconfigured block stay. -/
theorem failedConfigLeavesNoInstance : Obligations.FailedConfigLeavesNoInstance := by
  unfold Obligations.FailedConfigLeavesNoInstance
  intro w s t hinv hv hw ht
  rw [exec_config_badWidth hv hw] at ht
  cases ht
  have hv' : (reject .badWidth s).cfg.valid = false := by rwa [reject_cfg]
  refine ⟨hv', ?_, fun d => ⟨exec_notConfigured hv' rfl, exec_notConfigured hv' rfl, exec_notConfigured hv' rfl⟩⟩
  rw [reject_cfg]
  exact hinv.cfg.2 hv

/-- Settles O24: the response is the image of CFG, read by `getLsbD_cfgImage` and `toNat_cfgImage`; a control word of STATUS
that is not 0x0005 has a nonzero immediate or reserved bits. -/
theorem statusImage : Obligations.StatusImage := by
  unfold Obligations.StatusImage
  refine ⟨fun s => ?_, fun s hinv hv => ?_, rfl, fun d => ?_, fun c s hop hne => ?_⟩
  · refine ⟨cfgImage s.cfg, exec_status_eq s, toNat_cfgImage s.cfg, fun i h5 => ?_, fun i h5 h8 => ?_, ?_, fun i h9 => ?_⟩
    · rw [getLsbD_cfgImage, if_pos h5]
    · simp [getLsbD_cfgImage, show ¬i < 5 by omega, show i ≠ 8 by omega]
    · rw [getLsbD_cfgImage]; rfl
    · simp [getLsbD_cfgImage, show ¬i < 5 by omega, show i ≠ 8 by omega]
  · rw [exec_status_eq, hinv.cfgImage_eq_zero hv]
  · exact decode_of_op_status (c := ⟨0x0005, d⟩) (by decide : rsvField 0x0005 = 0) (by decide : immField 0x0005 = 0)
      (by decide : opField 0x0005 = 5)
  · have hne' : c.cw.toNat ≠ 5 := fun h => hne (BitVec.eq_of_toNat_eq h)
    exact performCommand_of_immediate_or_reserved (by omega) (by omega) (by omega) s

end Sys2Proof.Machine
end

section
/-! SUPPORT. What a REDUCE and an exact host answer where register 0 is the only one that is not 0. -/

namespace Sys2Proof.Machine

open Host.Outcome

/-! ### The sum and the zero count, register by register -/

theorem harmonicSum_succ (r : Memory) (m : Nat) : harmonicSum r (m + 1) = harmonicSum r m + tableTerm r m := by
  simp [harmonicSum, List.range_succ]

theorem zeroCount_succ (r : Memory) (m : Nat) :
    zeroCount r (m + 1) = zeroCount r m + if r.read m = 0 then 1 else 0 := by
  simp [zeroCount, List.range_succ, List.countP_cons]

/-- R84: a register that is 0 contributes 1, with its 63 fraction bits. -/
theorem tableTerm_of_read_eq_zero {r : Memory} {i : Nat} (h : r.read i = 0) : tableTerm r i = 2 ^ 63 := by
  rw [tableTerm, h]; rfl

section
variable {r : Memory} {n : Nat} (hzero : ∀ i, 1 ≤ i → i ≤ n → r.read i = 0)
include hzero

/-- R86, where every register but the first is 0. -/
theorem harmonicSum_of_read_eq_zero : harmonicSum r (n + 1) = tableTerm r 0 + n * 2 ^ 63 := by
  induction n with
  | zero => simp [harmonicSum]
  | succ n ih =>
    have hlast := tableTerm_of_read_eq_zero (hzero (n + 1) (by omega) le_rfl)
    rw [harmonicSum_succ, ih fun i h1 hn => hzero i h1 (by omega), hlast]
    omega

/-- R89, where the first register is the only one that is not 0. -/
theorem zeroCount_of_read_eq_zero (hfirst : r.read 0 ≠ 0) : zeroCount r (n + 1) = n := by
  induction n with
  | zero => rw [zeroCount_succ, if_neg hfirst]; rfl
  | succ n ih =>
    rw [zeroCount_succ, ih fun i h1 hn => hzero i h1 (by omega), if_pos (hzero (n + 1) (by omega) le_rfl)]

end

/-- R91, at a legal width. -/
theorem exec_reduce_of_configured {s : State} (hc : Configured s) :
    exec .reduce s = next (respond .ok (BitVec.ofNat 64 (zeroCount s.reg (numRegs s))) 0
      (BitVec.ofNat 84 (harmonicSum s.reg (numRegs s))) s) := by
  obtain ⟨hv, -, h20⟩ := hc
  have hcells : numRegs s ≤ Config.numCells := Nat.pow_le_pow_right (by decide) h20
  simp only [exec, execReduce, if_pos hv, if_pos hcells, countWord]

/-! ### Linear counting -/

/-- R94: with one register of `n + 1` not 0, the linear count is 1, from `1 - 1/x ≤ ln x ≤ x - 1` at `x = (n + 1) / n`. -/
theorem isLinearCount_one_nonzero {n : Nat} (hn : 2 ≤ n) : IsLinearCount (n + 1) n 1 := by
  have hn' : (2 : ℝ) ≤ n := by exact_mod_cast hn
  have hx : (0 : ℝ) < (n + 1) / n := by positivity
  have hlow := mul_le_mul_of_nonneg_left (Real.one_sub_inv_le_log_of_pos hx) (by positivity : (0 : ℝ) ≤ n + 1)
  rw [inv_div] at hlow
  have hhigh := mul_le_mul_of_nonneg_left (Real.log_le_sub_one_of_pos hx) (by positivity : (0 : ℝ) ≤ n + 1)
  have hlow_eq : ((n : ℝ) + 1) * (1 - n / (n + 1)) = 1 := by field_simp; ring
  have hhigh_eq : ((n : ℝ) + 1) * ((n + 1) / n - 1) = 1 + 1 / n := by field_simp; ring
  have hinv : 1 / (n : ℝ) < 1 := by rw [div_lt_one (by linarith)]; linarith
  unfold IsLinearCount
  push_cast
  constructor <;> linarith

/-- R94, R95: below the threshold and with a register at 0, an exact host answers the linear count. -/
theorem HostNumerics.Exact.count_eq_linear {num : HostNumerics} (h : num.Exact) {w sfix z c : Nat} (hs : 0 < sfix)
    (hz : 1 ≤ z) (hzm : z ≤ 2 ^ w) (hbelow : rawEstimate (2 ^ w) sfix < 5 / 2 * (2 ^ w : Nat))
    (hc : IsLinearCount (2 ^ w) z c) (hc64 : c < 2 ^ 64) : count num w sfix z = .ok (BitVec.ofNat 64 c) := by
  obtain ⟨hthreshold, -, hlinear⟩ := h (2 ^ w) sfix z (Nat.two_pow_pos w) hs hz hzm
  have hvalue : estimateValue num w sfix z = c := by
    rw [estimateValue, hthreshold.2 hbelow, decide_eq_true (show 0 < z from hz), Bool.and_true, if_pos rfl]
    exact linearCount_unique hlinear hc
  rw [count, hvalue, if_neg (by omega)]

end Sys2Proof.Machine
end

section
/-! SUPPORT. The update path: the rank in its three forms, and what ADD and READREG answer on a configured block. -/

namespace Sys2Proof.Machine

open Host.Outcome

/-! ### The rank -/

theorem rank_zero (w : Nat) : rank 0 w = 65 - w := if_pos rfl

theorem rank_of_ne_zero {rem : Word} (h : rem ≠ 0) (w : Nat) : rank rem w = clz64 rem + 1 := if_neg h

/-- R79: clamped to the remainder's width, the count over the shifted word is the count over the field below the index. -/
theorem clzBelow_eq_min_clz64 (key : Word) {w : Nat} (hw : w ≤ 64) :
    clzBelow key (64 - w) = min (clz64 (key <<< w)) (64 - w) := by
  obtain ⟨hzeros, hone⟩ := clzBelow_spec (key <<< w) 64
  have hbit {j : Nat} (hj : j < 64 - w) : (key <<< w).getLsbD (64 - 1 - j) = key.getLsbD (64 - w - 1 - j) := by
    rw [← getLsbD_tail_add key (show 64 - w - 1 - j < 64 - w by omega), show w + (64 - w - 1 - j) = 64 - 1 - j by omega]
  refine clzBelow_unique (Nat.min_le_right _ _) (fun j hj => ?_) fun hlt => ?_
  · rw [← hbit (by omega)]
    exact hzeros j (show j < clz64 (key <<< w) by omega)
  · have hclz : min (clz64 (key <<< w)) (64 - w) = clz64 (key <<< w) := by omega
    rw [hclz] at hlt ⊢
    rw [← hbit hlt]
    exact hone (show clz64 (key <<< w) < 64 by omega)

/-- R79: the zero remainder needs the clamp, and no other does. -/
theorem rank_eq_min_clz64 (key : Word) {w : Nat} (hw : w ≤ 64) :
    rank (key <<< w) w = min (clz64 (key <<< w)) (64 - w) + 1 := by
  by_cases h : key <<< w = 0
  · rw [h, rank_zero, clz64_zero]; omega
  · have hlt := clz64_shiftLeft_lt h
    rw [rank_of_ne_zero h]; omega

/-! ### READREG on a configured block -/

/-- R83: an index below the register count is a physical cell (R21). -/
theorem exec_readreg_of_lt {s : State} (hc : Configured s) {index : Word} (hi : index.toNat < 2 ^ width s) :
    exec (.readreg index) s = next (respond .ok (zextReg (s.reg.read index.toNat)) 0 0 s) := by
  obtain ⟨hv, -, h20⟩ := hc
  have hcell : index.toNat < Config.numCells := hi.trans_le (Nat.pow_le_pow_right (by decide) h20)
  simp only [exec, execReadreg, if_pos hv, if_pos hi, readCell_eq s hcell]

theorem exec_readreg_badArg {s : State} (hv : s.cfg.valid = true) {index : Word} (hi : 2 ^ width s ≤ index.toNat) :
    exec (.readreg index) s = next (reject .badArg s) := by
  simp only [exec, execReadreg, if_pos hv, if_neg (Nat.not_lt.2 hi)]

theorem toNat_zextReg (v : RegVal) : (zextReg v).toNat = v.toNat :=
  BitVec.toNat_setWidth_of_le (by decide)

/-! ### The configuration through a sequence of ADDs -/

theorem RaisedBy.width_eq {keys : List Word} {s t : State} (h : RaisedBy keys s t) : width t = width s := by
  rw [width, h.cfg]

theorem RaisedBy.configured {keys : List Word} {s t : State} (h : RaisedBy keys s t) (hc : Configured s) :
    Configured t := by
  rwa [Configured, h.cfg, h.width_eq]

/-! ### The all-zero key at width 8 -/

/-- R82: what an exact host answers to `Z = 255` and `S_fix = 255 · 2^63 + 2^6` at width 8: the raw estimate is far below
the threshold, and the linear count of one nonzero register is 1. -/
theorem HostNumerics.Exact.count_one_at_width_eight {num : HostNumerics} (h : num.Exact) :
    count num 8 0x7F8000000000000040 255 = .ok 1 := by
  have hbelow : rawEstimate (2 ^ 8) 0x7F8000000000000040 < 5 / 2 * (2 ^ 8 : Nat) := by
    norm_num [rawEstimate, biasConstant, harmonicMean]
  exact h.count_eq_linear (by decide) (by decide) (by decide) hbelow (isLinearCount_one_nonzero (by decide)) (by decide)

/-- R82: what an ADD of key 0 leaves in the cleared array at width 8. -/
theorem RaisedBy.read_of_zero_key {u v : State} (h : RaisedBy [0] u v) (hw : width u = 8)
    (hclear : ∀ j, u.reg.read j = 0) (j : Nat) : v.reg.read j = if j = 0 then 57 else 0 := by
  have hindex : keyIndex 0 8 = 0 := by decide
  have hrank : keyRank 0 8 = 57 := rank_zero 8
  have hread := h.read j
  rw [hw, hclear, largestRank_cons, largestRank_nil, hindex, hrank] at hread
  refine BitVec.eq_of_toNat_eq (hread.trans ?_)
  by_cases hj : j = 0
  · rw [if_pos hj, if_pos hj.symm]; rfl
  · rw [if_neg hj, if_neg (Ne.symm hj)]; rfl

/-- R82: what a REDUCE of that array answers. -/
theorem exec_reduce_of_zero_key {v : State} (hc : Configured v) (hw : width v = 8)
    (hread : ∀ j, v.reg.read j = if j = 0 then 57 else 0) :
    exec .reduce v = next (respond .ok 255 0 0x7F8000000000000040 v) := by
  have hfirst : v.reg.read 0 = 57 := hread 0
  have hzero : ∀ i, 1 ≤ i → i ≤ 255 → v.reg.read i = 0 := fun i h1 _ => by rw [hread, if_neg (by omega)]
  have hterm : tableTerm v.reg 0 = 2 ^ 6 := by rw [tableTerm, hfirst]; rfl
  have hm : numRegs v = 255 + 1 := congrArg (2 ^ ·) hw
  rw [exec_reduce_of_configured hc, hm, harmonicSum_of_read_eq_zero hzero, hterm,
    zeroCount_of_read_eq_zero hzero (by rw [hfirst]; decide)]
  rfl

/-! ### The obligations of 42_add.md -/

/-- Settles O28: a nonzero remainder's scan ends above its `w` low zeros, and a zero one has rank `65 - w` by the clamp. -/
theorem rankRange : Obligations.RankRange := by
  unfold Obligations.RankRange
  intro key w h8 h20 rem
  have hmin : rank rem w = min (clz64 rem) (64 - w) + 1 := rank_eq_min_clz64 key (by omega)
  refine ⟨fun h => ?_, fun h => by rw [h, rank_zero], by omega, by omega, by omega, ?_⟩
  · have hlt : clz64 rem < 64 - w := clz64_shiftLeft_lt h
    omega
  · rw [BitVec.toNat_ofNat]
    exact Nat.mod_eq_of_lt (by omega)

/-- Settles O29: the clamped count of the shifted word is the count of the field below the index. -/
theorem rankEquivalentForms : Obligations.RankEquivalentForms := by
  unfold Obligations.RankEquivalentForms
  intro key w _ h20
  have hw : w ≤ 64 := by omega
  exact ⟨by rw [rank_eq_min_clz64 key hw, clzBelow_eq_min_clz64 key hw], rank_eq_min_clz64 key hw⟩

/-- Settles O26: the state behind the response is the one with the key's register raised to the key's rank; a control word
of ADD that is not 0x0002 has a nonzero immediate or reserved bits. -/
theorem addRaisesOneRegister : Obligations.AddRaisesOneRegister := by
  unfold Obligations.AddRaisesOneRegister
  refine ⟨fun key s hwf hc => ?_, fun key s hv => exec_notConfigured hv rfl, fun key => ?_, fun c s hop hne => ?_⟩
  · have hindex : keyIndex key (width s) = key.toNat / 2 ^ (64 - width s) := by
      rw [keyIndex, BitVec.toNat_ushiftRight, Nat.shiftRight_eq_div_pow]
    have hrank := keyRank_le key (width s)
    have hadd := exec_add_of_configured hc key
    obtain ⟨-, h8, h20⟩ := hc
    rw [← hindex]
    exact ⟨head_lt key (by omega), _, hadd, fun j => raiseCell_read hwf _ j (by omega),
      raiseCell_cfg _ _ _ _, raiseCell_inputs _ _ _ _, raiseCell_rspReady _ _ _ _, raiseCell_rspPort _ _ _ _,
      raiseCell_delivered _ _ _ _, raiseCell_draw _ _ _ _⟩
  · exact decode_of_op_add (c := ⟨0x0002, key⟩) (by decide : rsvField 0x0002 = 0) (by decide : immField 0x0002 = 0)
      (by decide : opField 0x0002 = 2)
  · have hne' : c.cw.toNat ≠ 2 := fun h => hne (BitVec.eq_of_toNat_eq h)
    exact performCommand_of_immediate_or_reserved (by omega) (by omega) (by omega) s

/-- Settles O32: the response is the register's value below `2^W`, which no 6-bit register loses in a result word; a control
word of READREG that is not 0x0004 has a nonzero immediate or reserved bits. -/
theorem readregResult : Obligations.ReadregResult := by
  unfold Obligations.ReadregResult
  refine ⟨fun index s hc => ⟨fun hi => ?_, exec_readreg_badArg hc.1⟩, fun index s hv => exec_notConfigured hv rfl,
    fun index => ?_, fun c s hop hne => ?_⟩
  · exact ⟨_, exec_readreg_of_lt hc hi, toNat_zextReg _⟩
  · exact decode_of_op_readreg (c := ⟨0x0004, index⟩) (by decide : rsvField 0x0004 = 0)
      (by decide : immField 0x0004 = 0) (by decide : opField 0x0004 = 4)
  · have hne' : c.cw.toNat ≠ 4 := fun h => hne (BitVec.eq_of_toNat_eq h)
    exact performCommand_of_immediate_or_reserved (by omega) (by omega) (by omega) s

/-- Settles O30: the ADD raises register 0 of a cleared array to 57, the rank of the zero remainder; the sum and the zero
count then follow from the 255 registers that are 0. -/
theorem allZeroKeyAtWidthEight : Obligations.AllZeroKeyAtWidthEight := by
  unfold Obligations.AllZeroKeyAtWidthEight
  intro s u hv hu
  rw [exec_config_of_legal hv (by decide) (by decide)] at hu
  obtain rfl := next.inj hu
  set u := respond .ok 0 0 0 (construct 8 s)
  have hreg : u.reg = Memory.cleared := respond_reg _ _ _ _ _
  have hw : width u = 8 := (width_respond _ _ _ _ _).trans (width_construct (by decide) s)
  have hc : Configured u := ⟨by rw [respond_cfg, construct_cfg], by omega, by omega⟩
  obtain ⟨v, hadd, hraised⟩ := exec_add_raises hc (hreg ▸ Memory.cleared_wf) 0
  have hread := hraised.read_of_zero_key hw fun j => hreg ▸ Memory.read_cleared j
  have hreduce := exec_reduce_of_zero_key (hraised.configured hc) (hraised.width_eq.trans hw) hread
  exact ⟨v, hadd, hread 0, fun i h1 _ => by rw [hread, if_neg (by omega)], _, hreduce, rfl, rfl, rfl,
    fun num hnum => hnum.count_one_at_width_eight⟩

end Sys2Proof.Machine
end

section
/-! SUPPORT. The reduction path: a register's term of the sum as a power of two, and the sum and the zero count as finite
sums over the registers, with their bounds. -/

namespace Sys2Proof

theorem decode_of_op_reduce {c : Command} (hrsv : rsvField c.cw = 0) (himm : immField c.cw = 0)
    (hop : opField c.cw = 3) : decode c = .ok .reduce := by
  simp [decode, withoutImmediate, hrsv, himm, hop]

end Sys2Proof

namespace Sys2Proof.Machine

open Host.Outcome

/-! ### The lookup table -/

theorem toNat_lut {b : Byte} (h : b.toNat ≤ 63) : (lut b).toNat = 2 ^ (63 - b.toNat) := by
  rw [lut, if_pos h, BitVec.toNat_ofNat]
  exact Nat.mod_eq_of_lt (Nat.pow_lt_pow_right (by decide) (by omega))

theorem lut_eq_zero {b : Byte} (h : 64 ≤ b.toNat) : lut b = 0 :=
  if_neg (by omega)

theorem toNat_tableInput (v : RegVal) : (tableInput v).toNat = v.toNat :=
  BitVec.toNat_setWidth_of_le (by decide)

/-- R85: six bits address no entry from 64 on. -/
theorem toNat_tableInput_le (v : RegVal) : (tableInput v).toNat ≤ 63 := by
  have hv := v.isLt
  rw [toNat_tableInput]
  omega

theorem toNat_lut_tableInput (v : RegVal) : (lut (tableInput v)).toNat = 2 ^ (63 - v.toNat) := by
  rw [toNat_lut (toNat_tableInput_le v), toNat_tableInput]

/-- R89: the table's top bit marks a register that is 0. -/
theorem lut_tableInput_eq_top_iff (v : RegVal) : lut (tableInput v) = 0x8000000000000000 ↔ v = 0 := by
  have hv := v.isLt
  have htop : (0x8000000000000000 : Word).toNat = 2 ^ 63 := by decide
  rw [← BitVec.toNat_inj, toNat_lut_tableInput, htop, Nat.pow_right_inj (by decide), ← BitVec.toNat_inj]
  show _ ↔ v.toNat = 0
  omega

theorem tableTerm_eq (r : Memory) (i : Nat) : tableTerm r i = 2 ^ (63 - (r.read i).toNat) :=
  toNat_lut_tableInput (r.read i)

/-! ### The harmonic sum -/

theorem harmonicSum_eq_sum (r : Memory) (m : Nat) :
    harmonicSum r m = ∑ i ∈ Finset.range m, 2 ^ (63 - (r.read i).toNat) := by
  induction m with
  | zero => rfl
  | succ m ih => rw [harmonicSum_succ, ih, tableTerm_eq, Finset.sum_range_succ]

/-- R86: with its 63 fraction bits taken off, a term is the exact inverse power of two. -/
theorem two_pow_sub_div (v : RegVal) : (2 : ℚ) ^ (63 - v.toNat) / 2 ^ 63 = 1 / 2 ^ v.toNat := by
  have hv := v.isLt
  rw [div_eq_div_iff (by positivity) (by positivity), one_mul, ← pow_add, Nat.sub_add_cancel (by omega)]

theorem harmonicSum_le (r : Memory) (m : Nat) : harmonicSum r m ≤ m * 2 ^ 63 := by
  rw [harmonicSum_eq_sum]
  simpa using Finset.sum_le_card_nsmul (Finset.range m) _ (2 ^ 63)
    fun i _ => Nat.pow_le_pow_right (by decide) (Nat.sub_le 63 (r.read i).toNat)

/-- R88: registers of at most `k` give terms of at least `2^(63 - k)`. -/
theorem le_harmonicSum {r : Memory} {m k : Nat} (h : ∀ i, i < m → (r.read i).toNat ≤ k) :
    m * 2 ^ (63 - k) ≤ harmonicSum r m := by
  rw [harmonicSum_eq_sum]
  simpa using Finset.card_nsmul_le_sum (Finset.range m) _ (2 ^ (63 - k))
    fun i hi => Nat.pow_le_pow_right (by decide) (Nat.sub_le_sub_left (h i (Finset.mem_range.1 hi)) 63)

/-- R88, where the bounds are met: one value in every register. -/
theorem harmonicSum_of_read_eq {r : Memory} {m k : Nat} (h : ∀ i, i < m → (r.read i).toNat = k) :
    harmonicSum r m = m * 2 ^ (63 - k) := by
  rw [harmonicSum_eq_sum, Finset.sum_congr rfl fun i hi => by rw [h i (Finset.mem_range.1 hi)]]
  simp

/-- R86: at a legal width the sum is far below `2^84`. -/
theorem harmonicSum_two_pow_le (r : Memory) {w : Nat} (hw : w ≤ 20) : harmonicSum r (2 ^ w) ≤ 2 ^ 83 :=
  calc harmonicSum r (2 ^ w) ≤ 2 ^ w * 2 ^ 63 := harmonicSum_le r (2 ^ w)
    _ ≤ 2 ^ 20 * 2 ^ 63 := Nat.mul_le_mul_right _ (Nat.pow_le_pow_right (by decide) hw)
    _ = 2 ^ 83 := by norm_num

theorem toNat_ofNat_harmonicSum (r : Memory) {w : Nat} (hw : w ≤ 20) :
    (BitVec.ofNat 84 (harmonicSum r (2 ^ w))).toNat = harmonicSum r (2 ^ w) := by
  have hle := harmonicSum_two_pow_le r hw
  rw [BitVec.toNat_ofNat]
  exact Nat.mod_eq_of_lt (by omega)

/-- R87: a tree of adders adds the table outputs it reads. -/
theorem AdderTree.total_eq_sum (r : Memory) (tree : AdderTree) :
    tree.total r = (tree.inputs.map (tableTerm r)).sum := by
  induction tree with
  | term i => simp [AdderTree.total, AdderTree.inputs]
  | adder a b iha ihb => simp [AdderTree.total, AdderTree.inputs, iha, ihb]

/-! ### The zero count -/

theorem zeroCount_eq_card (r : Memory) (m : Nat) :
    zeroCount r m = ((Finset.range m).filter fun i => r.read i = 0).card := by
  rw [Finset.card_filter]
  induction m with
  | zero => rfl
  | succ m ih => rw [zeroCount_succ, ih, Finset.sum_range_succ]

theorem zeroCount_le (r : Memory) (m : Nat) : zeroCount r m ≤ m := by
  simpa [zeroCount] using List.countP_le_length (l := List.range m) (p := fun i => decide (r.read i = 0))

theorem zeroCount_of_all_zero {r : Memory} {m : Nat} (h : ∀ i, i < m → r.read i = 0) : zeroCount r m = m := by
  rw [zeroCount_eq_card, Finset.filter_true_of_mem fun i hi => h i (Finset.mem_range.1 hi), Finset.card_range]

theorem toNat_ofNat_zeroCount (r : Memory) {w : Nat} (hw : w ≤ 20) :
    (BitVec.ofNat 64 (zeroCount r (2 ^ w))).toNat = zeroCount r (2 ^ w) := by
  have hle := zeroCount_le r (2 ^ w)
  have hpow : 2 ^ w ≤ 2 ^ 20 := Nat.pow_le_pow_right (by decide) hw
  rw [BitVec.toNat_ofNat]
  exact Nat.mod_eq_of_lt (by omega)

/-! ### The obligations of 43_count.md: the reduction path -/

/-- Settles O34: both halves of the table. -/
theorem lookupTable : Obligations.LookupTable := by
  unfold Obligations.LookupTable
  exact ⟨fun _ => toNat_lut, fun _ => lut_eq_zero⟩

/-- Settles O35: the input is the register's six bits, so no sum reads an entry from 64 on. -/
theorem tableInputsStayBelowSixtyFour : Obligations.TableInputsStayBelowSixtyFour := by
  unfold Obligations.TableInputsStayBelowSixtyFour
  refine ⟨fun v => ⟨toNat_tableInput v, toNat_tableInput_le v⟩, fun s hinv hv i hi => ?_, fun other r m hother => ?_⟩
  · obtain ⟨-, hbound, -⟩ := hinv.array hv
    rw [toNat_tableInput]
    exact hbound i hi
  · have hterm (i : Nat) : (other (tableInput (r.read i))).toNat = tableTerm r i := by
      rw [hother _ (toNat_tableInput_le _), tableTerm]
    simp only [hterm, harmonicSum]

/-- Settles O36: the terms are the powers of two of the table, and `2^20` of at most `2^63` each stay within `2^83`. -/
theorem harmonicSumIsExact : Obligations.HarmonicSumIsExact := by
  unfold Obligations.HarmonicSumIsExact
  refine fun r => ⟨harmonicSum_eq_sum r, fun m => ?_,
    fun w hw => ⟨harmonicSum_two_pow_le r hw, toNat_ofNat_harmonicSum r hw⟩⟩
  rw [harmonicSum_eq_sum, Nat.cast_sum, Finset.sum_div]
  refine Finset.sum_congr rfl fun i _ => ?_
  rw [Nat.cast_pow, Nat.cast_ofNat, two_pow_sub_div]

/-- Settles O37: a tree computes the sum over its inputs, which does not depend on their order. -/
theorem treeShapeIsNotObservable : Obligations.TreeShapeIsNotObservable := by
  unfold Obligations.TreeShapeIsNotObservable
  intro r m tree hperm
  rw [AdderTree.total_eq_sum, harmonicSum]
  exact (hperm.map (tableTerm r)).sum_eq

/-- Settles O38: `2^W` terms, each between the term of the invariant's bound `65 - W` and the term of 0. -/
theorem harmonicSumBounds : Obligations.HarmonicSumBounds := by
  unfold Obligations.HarmonicSumBounds
  intro s hinv hv
  obtain ⟨-, h8, h20⟩ := hinv.configured hv
  obtain ⟨-, hbound, -⟩ := hinv.array hv
  have hlow : 2 ^ (2 * width s - 2) = numRegs s * 2 ^ (63 - (65 - width s)) := by
    rw [numRegs, ← pow_add]
    congr 1
    omega
  have hhigh : 2 ^ (width s + 63) = numRegs s * 2 ^ 63 := pow_add 2 (width s) 63
  have hge : numRegs s * 2 ^ (63 - (65 - width s)) ≤ harmonicSum s.reg (numRegs s) := le_harmonicSum hbound
  rw [hlow, hhigh]
  refine ⟨hge, harmonicSum_le _ _, fun hzero => ?_, harmonicSum_of_read_eq, ?_⟩
  · exact harmonicSum_of_read_eq (k := 0) fun i hi => by rw [hzero i hi]; rfl
  · exact lt_of_lt_of_le (by positivity) hge

/-- Settles O39: the count is a cardinality, and the table's output is `2^63` exactly at 0. -/
theorem zeroCountCountsZeroRegisters : Obligations.ZeroCountCountsZeroRegisters := by
  unfold Obligations.ZeroCountCountsZeroRegisters
  intro r m
  have hle := zeroCount_le r m
  refine ⟨zeroCount_eq_card r m, hle, fun hm => by omega, ?_⟩
  rw [← List.countP_eq_length_filter, List.countP_map, zeroCount]
  simp only [Function.comp_def, lut_tableInput_eq_top_iff]

/-- Settles O40: at a legal width neither result is cut by its port; a control word of REDUCE that is not 0x0003 has a
nonzero immediate or reserved bits. -/
theorem reduceResult : Obligations.ReduceResult := by
  unfold Obligations.ReduceResult
  refine ⟨fun s hc => ?_, fun s hv => exec_notConfigured hv rfl, fun d => ?_, fun c s hop hne => ?_⟩
  · have hreduce := exec_reduce_of_configured hc
    obtain ⟨-, -, h20⟩ := hc
    refine ⟨_, _, hreduce, ?_, ?_⟩
    · rw [toNat_ofNat_zeroCount s.reg h20, zeroCount_eq_card]
    · rw [toNat_ofNat_harmonicSum s.reg h20, harmonicSum_eq_sum]
  · exact decode_of_op_reduce (c := ⟨0x0003, d⟩) (by decide : rsvField 0x0003 = 0) (by decide : immField 0x0003 = 0)
      (by decide : opField 0x0003 = 3)
  · have hne' : c.cw.toNat ≠ 3 := fun h => hne (BitVec.eq_of_toNat_eq h)
    exact performCommand_of_immediate_or_reserved (by omega) (by omega) (by omega) s

end Sys2Proof.Machine
end

section
/-! SUPPORT. The host-side estimate: an exact host's estimate as one floor, `count` on both sides of `2^64`, and what no
command but ADD changes on a configured block. -/

namespace Sys2Proof.Machine

open Host.Outcome

/-! ### The real values that are floored -/

theorem rawEstimate_pos {m sfix : Nat} (hm : 0 < m) (hs : 0 < sfix) : 0 < rawEstimate m sfix := by
  have hbias := biasConstant_pos hm
  unfold rawEstimate harmonicMean
  positivity

/-- R97: with `z` of at least 1 and at most `m`, the logarithm is of a number of at least 1. -/
theorem mul_log_div_nonneg {m z : Nat} (hz : 1 ≤ z) (hzm : z ≤ m) : 0 ≤ (m : ℝ) * Real.log (m / z) := by
  have hz' : (0 : ℝ) < z := by exact_mod_cast hz
  have hone : (1 : ℝ) ≤ m / z := by
    rw [one_le_div hz']
    exact_mod_cast hzm
  exact mul_nonneg (Nat.cast_nonneg m) (Real.log_nonneg hone)

/-- R92, R93: the rational raw estimate is the real one. -/
theorem cast_rawEstimate (m sfix : Nat) :
    ((rawEstimate m sfix : ℚ) : ℝ) = 0.7213 / (1 + 1.079 / (m : ℝ)) * (m : ℝ) ^ 2 * (2 ^ 63 / (sfix : ℝ)) := by
  unfold rawEstimate biasConstant harmonicMean
  push_cast
  norm_num

/-! ### An exact host -/

theorem estimateValue_of_linear {num : HostNumerics} {w sfix z : Nat} (hbelow : num.belowThreshold (2 ^ w) sfix = true)
    (hz : 0 < z) : estimateValue num w sfix z = num.floorLinear (2 ^ w) z := by
  simp [estimateValue, hbelow, hz]

theorem estimateValue_of_raw {num : HostNumerics} {w sfix z : Nat}
    (h : ¬(num.belowThreshold (2 ^ w) sfix = true ∧ 0 < z)) :
    estimateValue num w sfix z = num.floorRaw (2 ^ w) sfix := by
  rw [estimateValue, if_neg]
  simpa using h

section
variable {num : HostNumerics} (h : num.Exact) {m sfix : Nat} (hm : 0 < m) (hs : 0 < sfix)
include h hm hs

theorem HostNumerics.Exact.belowThreshold_iff :
    num.belowThreshold m sfix = true ↔ rawEstimate m sfix < 5 / 2 * m :=
  (h m sfix 1 hm hs le_rfl hm).1

theorem HostNumerics.Exact.floorRaw_eq : num.floorRaw m sfix = ⌊rawEstimate m sfix⌋₊ := by
  obtain ⟨-, hraw, -⟩ := h m sfix 1 hm hs le_rfl hm
  exact ((Nat.floor_eq_iff (rawEstimate_nonneg m sfix)).2 hraw).symm

end

theorem HostNumerics.Exact.floorLinear_eq {num : HostNumerics} (h : num.Exact) {m z : Nat} (hz : 1 ≤ z)
    (hzm : z ≤ m) : num.floorLinear m z = ⌊(m : ℝ) * Real.log (m / z)⌋₊ := by
  obtain ⟨-, -, hlinear⟩ := h m 1 z (by omega) one_pos hz hzm
  exact ((Nat.floor_eq_iff (mul_log_div_nonneg hz hzm)).2 hlinear).symm

section
variable {num : HostNumerics} (h : num.Exact) {w sfix z : Nat} (hs : 0 < sfix)
include h hs

/-- R94, R95: below the threshold and with a register at 0. -/
theorem HostNumerics.Exact.estimateValue_eq_floor_linear
    (hbelow : rawEstimate (2 ^ w) sfix < 5 / 2 * (2 ^ w : Nat)) (hz : 0 < z) (hzm : z ≤ 2 ^ w) :
    estimateValue num w sfix z = ⌊((2 ^ w : Nat) : ℝ) * Real.log ((2 ^ w : Nat) / z)⌋₊ := by
  have hbelow' := (h.belowThreshold_iff (Nat.two_pow_pos w) hs).2 hbelow
  rw [estimateValue_of_linear hbelow' hz, h.floorLinear_eq hz hzm]

/-- R95, everywhere else. -/
theorem HostNumerics.Exact.estimateValue_eq_floor_raw
    (hraw : ¬(rawEstimate (2 ^ w) sfix < 5 / 2 * (2 ^ w : Nat) ∧ 0 < z)) :
    estimateValue num w sfix z = ⌊rawEstimate (2 ^ w) sfix⌋₊ := by
  have hm := Nat.two_pow_pos w
  rw [← h.belowThreshold_iff hm hs] at hraw
  rw [estimateValue_of_raw hraw, h.floorRaw_eq hm hs]

end

/-! ### The 64-bit check -/

theorem count_of_lt {num : HostNumerics} {w sfix z : Nat} (h : estimateValue num w sfix z < 2 ^ 64) :
    count num w sfix z = .ok (BitVec.ofNat 64 (estimateValue num w sfix z)) :=
  if_neg (Nat.not_le.2 h)

/-- R98. -/
theorem count_of_ge {num : HostNumerics} {w sfix z : Nat} (h : 2 ^ 64 ≤ estimateValue num w sfix z) :
    count num w sfix z = .error .estimateOverflow :=
  if_pos h

/-- R98: a value returned is not wrapped. -/
theorem toNat_of_count_eq_ok {num : HostNumerics} {w sfix z : Nat} {value : Word}
    (h : count num w sfix z = .ok value) : value.toNat = estimateValue num w sfix z := by
  by_cases hlt : estimateValue num w sfix z < 2 ^ 64
  · rw [count_of_lt hlt] at h
    cases h
    rw [BitVec.toNat_ofNat]
    exact Nat.mod_eq_of_lt hlt
  · rw [count_of_ge (Nat.not_lt.1 hlt)] at h
    cases h

/-! ### The rule's example of an overflow -/

/-- R98: `S_fix` at width 8 with every register at 57. -/
theorem harmonicSum_of_read_eq_57 {r : Memory} (h : ∀ i, i < 256 → r.read i = 57) : harmonicSum r 256 = 2 ^ 14 :=
  harmonicSum_of_read_eq (k := 57) fun i hi => by rw [h i hi]; rfl

theorem floor_rawEstimate_of_two_pow_14 : ⌊rawEstimate (2 ^ 8) (2 ^ 14)⌋₊ = 26499581405668102743 := by
  rw [Nat.floor_eq_iff (rawEstimate_nonneg _ _)]
  norm_num [rawEstimate, biasConstant, harmonicMean]

theorem not_rawEstimate_of_two_pow_14_below : ¬rawEstimate (2 ^ 8) (2 ^ 14) < 5 / 2 * (2 ^ 8 : Nat) := by
  norm_num [rawEstimate, biasConstant, harmonicMean]

/-! ### The estimate of a cleared array -/

/-- R96: with every register 0 the raw estimate is `α(m) · m`, below the threshold. -/
theorem rawEstimate_of_cleared_below {m : Nat} (hm : 0 < m) : rawEstimate m (m * 2 ^ 63) < 5 / 2 * m := by
  have hm' : (0 : ℚ) < m := by exact_mod_cast hm
  have hraw : rawEstimate m (m * 2 ^ 63) = biasConstant m * m := by
    rw [rawEstimate, harmonicMean, Nat.cast_mul, Nat.cast_pow, Nat.cast_ofNat]
    field_simp
  have hbias : biasConstant m < 5 / 2 := by
    rw [biasConstant, div_lt_iff₀ (by positivity)]
    have hpos : 0 < (1079 / 1000 : ℚ) / m := by positivity
    linarith
  rw [hraw]
  exact mul_lt_mul_of_pos_right hbias hm'

/-- R94: the linear count of no nonzero register. -/
theorem isLinearCount_all_zero {m : Nat} (hm : 0 < m) : IsLinearCount m m 0 := by
  have hm' : (m : ℝ) ≠ 0 := by exact_mod_cast hm.ne'
  simp [IsLinearCount, div_self hm']

/-- R96, R121: what an exact host answers to `Z = 2^W` and `S_fix = 2^(W + 63)`. -/
theorem HostNumerics.Exact.count_of_cleared {num : HostNumerics} (h : num.Exact) (w : Nat) :
    count num w (2 ^ w * 2 ^ 63) (2 ^ w) = .ok 0 := by
  have hm := Nat.two_pow_pos w
  exact h.count_eq_linear (by positivity) hm le_rfl (rawEstimate_of_cleared_below hm) (isLinearCount_all_zero hm)
    (by decide)

/-- R91, R121: both numbers fit the ports of a REDUCE's response. -/
theorem HostNumerics.Exact.countOfResponse_of_cleared {num : HostNumerics} (h : num.Exact) {w : Nat} (h20 : w ≤ 20)
    (st : StatusCode) (r1 : Word) :
    countOfResponse num w ⟨st, BitVec.ofNat 64 (2 ^ w), r1, BitVec.ofNat 84 (2 ^ w * 2 ^ 63)⟩ = .ok 0 := by
  have hz : (BitVec.ofNat 64 (2 ^ w)).toNat = 2 ^ w := by
    rw [BitVec.toNat_ofNat]
    exact Nat.mod_eq_of_lt (Nat.pow_lt_pow_right (by decide) (by omega))
  have hsum : (BitVec.ofNat 84 (2 ^ w * 2 ^ 63)).toNat = 2 ^ w * 2 ^ 63 := by
    rw [BitVec.toNat_ofNat, ← pow_add]
    exact Nat.mod_eq_of_lt (Nat.pow_lt_pow_right (by decide) (by omega))
  rw [countOfResponse, hz, hsum]
  exact h.count_of_cleared w

/-! ### Commands on a configured block -/

/-- R69: what a successful CONFIG leaves. -/
theorem configured_of_exec_config {w : Nat} {s u : State} (hv : s.cfg.valid = false) (h8 : 8 ≤ w) (h20 : w ≤ 20)
    (hu : exec (.config w) s = next u) : Configured u ∧ width u = w ∧ u.reg = Memory.cleared := by
  rw [exec_config_of_legal hv h8 h20] at hu
  obtain rfl := next.inj hu
  have hw : width (respond .ok 0 0 0 (construct w s)) = w := (width_respond _ _ _ _ _).trans (width_construct h20 s)
  exact ⟨⟨by rw [respond_cfg, construct_cfg], by omega, by omega⟩, hw, respond_reg _ _ _ _ _⟩

/-- R111: on a configured block every command completes. -/
theorem exec_completes_of_configured {s : State} (hc : Configured s) (i : Instr) : ∃ t, exec i s = next t := by
  cases i with
  | config w => exact ⟨_, exec_alreadyConfigured hc.1 rfl⟩
  | add key => exact ⟨_, exec_add_of_configured hc key⟩
  | reduce => exact ⟨_, exec_reduce_of_configured hc⟩
  | readreg index =>
    by_cases hi : index.toNat < 2 ^ width s
    · exact ⟨_, exec_readreg_of_lt hc hi⟩
    · exact ⟨_, exec_readreg_badArg hc.1 (Nat.not_lt.1 hi)⟩
  | status => exact ⟨_, exec_status_eq s⟩
  | clz word => exact ⟨_, exec_clz word s⟩
  | split n word =>
    by_cases hn : 1 ≤ n ∧ n ≤ 63
    · exact ⟨_, exec_split_of_defined hn.1 hn.2 word s⟩
    · simp only [exec, execSplit, splitWord_eq_none word (show n = 0 ∨ 64 ≤ n by omega)]
      exact ⟨_, rfl⟩

/-- The same of a command as the host sends it. -/
theorem performCommand_completes_of_configured {s : State} (hc : Configured s) (c : Command) :
    ∃ t, performCommand c s = next t := by
  obtain ⟨_, -, e⟩ | ⟨i, -, e⟩ := performCommand_cases c s
  · exact ⟨_, e⟩
  · rw [e]
    exact exec_completes_of_configured hc i

/-- On a configured block only an ADD writes a register (R22). -/
theorem performCommand_reg_of_configured {c : Command} {s t : State} (h : performCommand c s = next t)
    (hv : s.cfg.valid = true) (ha : ∀ key, decode c ≠ .ok (.add key)) : t.reg = s.reg := by
  obtain ⟨st, a, b, x, u, rfl, rfl | ⟨i, hd, he⟩, -⟩ := performCommand_inv h
  · rw [respond_reg]
  · cases he with
    | unchanged => rw [respond_reg]
    | constructed w _ hv' => rw [hv] at hv'; cases hv'
    | raised key old hi => exact absurd (hi ▸ hd) (ha key)

/-- A sequence of commands but ADD on a configured block completes and keeps CFG and REG. -/
theorem performAll_of_configured {cmds : List Command} {s : State} (hc : Configured s)
    (ha : ∀ c, c ∈ cmds → ∀ key, decode c ≠ .ok (.add key)) :
    ∃ v, performAll cmds s = next v ∧ v.cfg = s.cfg ∧ v.reg = s.reg := by
  induction cmds generalizing s with
  | nil => exact ⟨s, rfl, rfl, rfl⟩
  | cons c rest ih =>
    obtain ⟨t, ht⟩ := performCommand_completes_of_configured hc c
    have hcfg := performCommand_cfg ht hc.1
    have hreg := performCommand_reg_of_configured ht hc.1 (ha c List.mem_cons_self)
    have hct : Configured t := by rwa [Configured, width, hcfg]
    obtain ⟨v, hv, hcfg', hreg'⟩ := ih hct fun d hd => ha d (List.mem_cons_of_mem c hd)
    refine ⟨v, ?_, hcfg'.trans hcfg, hreg'.trans hreg⟩
    simp only [performAll, ht]
    exact hv

/-- R121: what a REDUCE of a cleared array answers. -/
theorem exec_reduce_of_cleared {s : State} (hc : Configured s) (hzero : ∀ i, s.reg.read i = 0) :
    exec .reduce s = next (respond .ok (BitVec.ofNat 64 (2 ^ width s)) 0
      (BitVec.ofNat 84 (2 ^ width s * 2 ^ 63)) s) := by
  have hsum : harmonicSum s.reg (numRegs s) = 2 ^ width s * 2 ^ 63 :=
    harmonicSum_of_read_eq (k := 0) fun i _ => by rw [hzero]; rfl
  rw [exec_reduce_of_configured hc, hsum, zeroCount_of_all_zero fun i _ => hzero i]

/-! ### The obligations of 43_count.md: the host-side estimate -/

/-- Settles O42: the estimate is the floor of the branch's value, and `count` is it or the fault. -/
theorem estimateOverExactReals : Obligations.EstimateOverExactReals := by
  unfold Obligations.EstimateOverExactReals
  intro num w sfix z hnum _ _ hs hzm m E
  have hm : ((2 ^ w : Nat) : ℝ) = m := by simp [m]
  have hE : ((rawEstimate (2 ^ w) sfix : ℚ) : ℝ) = E := by rw [cast_rawEstimate, hm]
  have hbelow : rawEstimate (2 ^ w) sfix < 5 / 2 * (2 ^ w : Nat) ↔ E < 2.5 * m := by
    rw [← hE, ← hm, ← Rat.cast_lt (K := ℝ)]
    push_cast
    norm_num
  refine ⟨estimateValue num w sfix z, fun ⟨hlt, hz⟩ => ?_, fun hraw => ?_, fun hlt => ?_, count_of_ge⟩
  · rw [hnum.estimateValue_eq_floor_linear hs (hbelow.2 hlt) hz hzm, hm]
  · rw [← hbelow] at hraw
    rw [hnum.estimateValue_eq_floor_raw hs hraw, ← hE, ← Int.floor_toNat, ← Int.floor_toNat, Rat.floor_cast]
  · exact ⟨_, count_of_lt hlt, toNat_of_count_eq_ok (count_of_lt hlt)⟩

/-- Settles O43: `count` is the fault from `2^64` on and the estimate below; the example's sum is `2^14`, whose raw
estimate is above the threshold and above `2^64`. -/
theorem estimateOverflowIsNeverAValue : Obligations.EstimateOverflowIsNeverAValue := by
  unfold Obligations.EstimateOverflowIsNeverAValue
  refine ⟨fun num w sfix z => ⟨⟨count_of_ge, fun hfault => ?_⟩, fun value => toNat_of_count_eq_ok⟩,
    fun num s hnum hv hw hread => ?_⟩
  · by_contra hlt
    rw [count_of_lt (Nat.not_le.1 hlt)] at hfault
    cases hfault
  · have hc : Configured s := ⟨hv, by omega, by omega⟩
    have hsum := harmonicSum_of_read_eq_57 hread
    have hport : (BitVec.ofNat 84 (harmonicSum s.reg (numRegs s))).toNat = 2 ^ 14 := by
      rw [toNat_ofNat_harmonicSum s.reg (by omega), hw]
      exact hsum
    refine ⟨?_, _, exec_reduce_of_configured hc, count_of_ge ?_⟩
    · rw [hsum]
      exact (hnum.floorRaw_eq (Nat.two_pow_pos 8) (Nat.two_pow_pos 14)).trans floor_rawEstimate_of_two_pow_14
    · rw [hport, hnum.estimateValue_eq_floor_raw (Nat.two_pow_pos 14) fun hb =>
        not_rawEstimate_of_two_pow_14_below hb.1, floor_rawEstimate_of_two_pow_14]
      decide

/-- Settles O44: the array stays cleared, so a REDUCE answers `Z = 2^W` and `S_fix = 2^(W + 63)`, whose linear count
is 0. -/
theorem estimateBeforeAnyAddIsZero : Obligations.EstimateBeforeAnyAddIsZero := by
  unfold Obligations.EstimateBeforeAnyAddIsZero
  refine ⟨fun num w s u hnum h8 h20 hv hu between hbetween => ?_,
    fun m sfix z hm hs hz hzm => ⟨rawEstimate_pos hm hs, mul_log_div_nonneg hz hzm⟩⟩
  obtain ⟨hc, hw, hreg⟩ := configured_of_exec_config hv h8 h20 hu
  obtain ⟨v, hrun, hcfg, hreg'⟩ := performAll_of_configured hc hbetween
  have hwv : width v = w := by rwa [width, hcfg]
  have hcv : Configured v := by rwa [Configured, width, hcfg]
  have hreduce := exec_reduce_of_cleared hcv fun i => by rw [hreg', hreg, Memory.read_cleared]
  rw [hwv] at hreduce
  exact ⟨v, _, hrun, hreduce, hnum.countOfResponse_of_cleared h20 _ _⟩

end Sys2Proof.Machine
end

section
/-! SUPPORT. What a command needs before it may answer with each status (R103's table), the commands that complete on an
unconfigured block, and the status of every command by R110's order. -/

namespace Sys2Proof.Machine

open Host.Outcome

/-! ### The status codes -/

/-- R103: no two statuses share a code. -/
theorem Status.code_injective {st st' : Status} (h : st.code = st'.code) : st = st' := by
  revert h
  cases st <;> cases st' <;> decide

/-- R103: codes 6 and 7 have no status. -/
theorem Status.code_le (st : Status) : st.code ≤ 5 := by
  cases st <;> decide

/-! ### Which commands raise each status -/

theorem eq_of_needsConfig {i : Instr} (h : needsConfig i = true) : ∃ d, i = .add d ∨ i = .readreg d ∨ i = .reduce := by
  cases i with
  | add key => exact ⟨key, .inl rfl⟩
  | readreg index => exact ⟨index, .inr (.inl rfl)⟩
  | reduce => exact ⟨0, .inr (.inr rfl)⟩
  | _ => cases h

theorem eq_of_needsUnconfigured {i : Instr} (h : needsUnconfigured i = true) : ∃ w, i = .config w := by
  cases i with
  | config w => exact ⟨w, rfl⟩
  | _ => cases h

/-- R103's table, a row per status: the commands that may answer with it, and the configuration state where that is its
cause (R105, R106). ILLEGAL is no answer of a decoded command (R104). -/
def MayAnswer (i : Instr) (s : State) : Status → Prop
  | .ok => True
  | .illegal => False
  | .notConfigured => needsConfig i = true ∧ s.cfg.valid = false
  | .alreadyConfigured => needsUnconfigured i = true ∧ s.cfg.valid = true
  | .badWidth => ∃ w, i = .config w
  | .badArg => ∃ n d, i = .readreg d ∨ i = .split n d

theorem mayAnswer_valueError (i : Instr) (s : State) : MayAnswer i s ((valueError s i).getD .ok) := by
  cases i with
  | config w =>
    simp only [valueError]
    split
    · trivial
    · exact ⟨w, rfl⟩
  | readreg index =>
    simp only [valueError]
    split
    · trivial
    · exact ⟨0, index, .inl rfl⟩
  | split n word =>
    simp only [valueError]
    split
    · exact ⟨n, word, .inr rfl⟩
    · trivial
  | _ => trivial

/-- R66, R68: where the split has no value. -/
theorem exec_split_of_undefined {n : Nat} (hn : n = 0 ∨ 64 ≤ n) (word : Word) (s : State) :
    exec (.split n word) s = next (reject .badArg s) := by
  simp only [exec, execSplit, splitWord_eq_none word hn]

/-- R103: a command answers only with the statuses of its rows. -/
theorem exec_mayAnswer {i : Instr} {s t : State} (h : exec i s = next t) :
    ∃ st a b x u, t = respond st a b x u ∧ MayAnswer i s st := by
  by_cases hc : needsConfig i = true ∧ s.cfg.valid = false
  · rw [exec_notConfigured hc.2 hc.1] at h; cases h
    exact ⟨.notConfigured, 0, 0, 0, s, rfl, hc⟩
  by_cases hu : needsUnconfigured i = true ∧ s.cfg.valid = true
  · rw [exec_alreadyConfigured hu.2 hu.1] at h; cases h
    exact ⟨.alreadyConfigured, 0, 0, 0, s, rfl, hu⟩
  by_cases hwf : i.wellFormed = true
  · obtain ⟨a, b, x, u, rfl⟩ := exec_status_by_value hwf hc hu h
    exact ⟨_, a, b, x, u, rfl, mayAnswer_valueError i s⟩
  cases i with
  | config w =>
    have hw : ¬w ≤ 63 := mt decide_eq_true hwf
    have hv : s.cfg.valid = false := by simpa [needsUnconfigured] using hu
    rw [exec_config_badWidth hv (by omega)] at h; cases h
    exact ⟨.badWidth, 0, 0, 0, s, rfl, w, rfl⟩
  | split n word =>
    have hn : ¬n ≤ 63 := mt decide_eq_true hwf
    rw [exec_split_of_undefined (by omega)] at h; cases h
    exact ⟨.badArg, 0, 0, 0, s, rfl, n, word, .inr rfl⟩
  | _ => exact absurd rfl hwf

/-- The same, read off the response. -/
theorem mayAnswer_of_lastResponse {i : Instr} {s t : State} {r : Response} (h : exec i s = next t)
    (hr : lastResponse t = some r) : ∃ st : Status, r.status = st.code ∧ MayAnswer i s st := by
  obtain ⟨st, a, b, x, u, rfl, hst⟩ := exec_mayAnswer h
  rw [lastResponse_respond] at hr; cases hr
  exact ⟨st, rfl, hst⟩

/-! ### Every command completes, with the status of R110's order -/

theorem exec_completes_of_unconfigured {s : State} (hv : s.cfg.valid = false) (i : Instr) : ∃ t, exec i s = next t := by
  cases i with
  | config w =>
    by_cases hw : 8 ≤ w ∧ w ≤ 20
    · exact ⟨_, exec_config_of_legal hv hw.1 hw.2⟩
    · exact ⟨_, exec_config_badWidth hv (by omega)⟩
  | add key => exact ⟨_, exec_notConfigured hv rfl⟩
  | reduce => exact ⟨_, exec_notConfigured hv rfl⟩
  | readreg index => exact ⟨_, exec_notConfigured hv rfl⟩
  | status => exact ⟨_, exec_status_eq s⟩
  | clz word => exact ⟨_, exec_clz word s⟩
  | split n word =>
    by_cases hn : 1 ≤ n ∧ n ≤ 63
    · exact ⟨_, exec_split_of_defined hn.1 hn.2 word s⟩
    · exact ⟨_, exec_split_of_undefined (by omega) word s⟩

/-- With the invariant no command stops the machine. -/
theorem Inv.exec_completes {s : State} (h : Inv s) (i : Instr) : ∃ t, exec i s = next t := by
  cases hv : s.cfg.valid with
  | false => exact exec_completes_of_unconfigured hv i
  | true => exact exec_completes_of_configured (h.configured hv) i

/-- R110: every command, an illegal one too, that gives a next state is answered with its expected status. -/
theorem performCommand_status {c : Command} {s t : State} (h : performCommand c s = next t) :
    ∃ a b x u, t = respond (expectedStatus c s) a b x u := by
  obtain ⟨e, hd, hp⟩ | ⟨i, hd, hp⟩ := performCommand_cases c s
  · rw [hp] at h; cases h
    simp only [expectedStatus, hd]
    exact ⟨0, 0, 0, s, rfl⟩
  · exact exec_status hd (hp ▸ h)

/-- With the invariant no command as the host sends it stops the machine. -/
theorem Inv.performCommand_completes {s : State} (h : Inv s) (c : Command) : ∃ t, performCommand c s = next t := by
  obtain ⟨e, -, hp⟩ | ⟨i, -, hp⟩ := performCommand_cases c s
  · exact ⟨_, hp⟩
  · rw [hp]
    exact h.exec_completes i

/-! ### The obligations of 60_exceptions.md -/

/-- Settles O27: the commands that need a configured block are rejected without one, and NOT_CONFIGURED is in no other row
of `MayAnswer`. -/
theorem notConfiguredCommands : Obligations.NotConfiguredCommands := by
  unfold Obligations.NotConfiguredCommands
  refine ⟨fun i s => exec_notConfigured, fun i s t r h hr hcode => ?_⟩
  obtain ⟨st, hst, hmay⟩ := mayAnswer_of_lastResponse h hr
  obtain rfl : st = .notConfigured := Status.code_injective (hst.symm.trans hcode)
  exact hmay

/-- Settles O45: an illegal control word is answered with ILLEGAL alone, and a decoded command as `MayAnswer` says. -/
theorem statusCodes : Obligations.StatusCodes := by
  unfold Obligations.StatusCodes
  refine ⟨rfl, rfl, rfl, rfl, rfl, rfl, fun c s t r h hr => ?_⟩
  obtain ⟨e, hd, hp⟩ | ⟨i, hd, hp⟩ := performCommand_cases c s
  · rw [hp] at h; cases h
    rw [lastResponse_reject] at hr; cases hr
    simp [Status.code, hd]
  · obtain ⟨st, hst, hmay⟩ := mayAnswer_of_lastResponse (hp ▸ h) hr
    have row (st' : Status) (hcode : r.status = st'.code) : MayAnswer i s st' :=
      Status.code_injective (hst.symm.trans hcode) ▸ hmay
    have hle : r.status ≤ 5 := hst ▸ st.code_le
    simp only [hd, Except.ok.injEq]
    exact ⟨by bv_omega, by bv_omega, fun h => (row .illegal h).elim, fun h => eq_of_needsConfig (row .notConfigured h).1,
      fun h => eq_of_needsUnconfigured (row .alreadyConfigured h).1, row .badWidth, row .badArg⟩

/-- Settles O46: it is the last part of `performCommand_inv`. -/
theorem rejectedCommandChangesNothing : Obligations.RejectedCommandChangesNothing := by
  unfold Obligations.RejectedCommandChangesNothing
  intro c s t r h hr hne
  obtain ⟨st, a, b, x, u, rfl, -, hrejected⟩ := performCommand_inv h
  rw [lastResponse_respond] at hr; cases hr
  obtain ⟨rfl, rfl, rfl, rfl⟩ := hrejected (mt (congrArg Status.code) hne)
  exact ⟨rfl, rfl, rfl, rfl, respond_cfg .., respond_reg ..⟩

/-- Settles O47: with the invariant every command completes, and its status is the expected one. -/
theorem priorityOfRejections : Obligations.PriorityOfRejections := by
  unfold Obligations.PriorityOfRejections
  refine ⟨fun c s hinv => ?_, fun s d hv => ⟨?_, ?_⟩, fun s d hv => ?_⟩
  · obtain ⟨t, ht⟩ := hinv.performCommand_completes c
    obtain ⟨a, b, x, u, rfl⟩ := performCommand_status ht
    exact ⟨_, _, ht, lastResponse_respond .., rfl⟩
  · have hop : 2 ≤ (0x0012 : CtrlWord).toNat % 16 ∧ (0x0012 : CtrlWord).toNat % 16 ≤ 6 := by decide
    have himm : (0x0012 : CtrlWord).toNat ≠ (0x0012 : CtrlWord).toNat % 16 := by decide
    exact performCommand_of_immediate_or_reserved (c := ⟨0x0012, d⟩) hop.1 hop.2 himm s
  · rw [performCommand_of_ok (show decode ⟨0x0004, 300⟩ = .ok (.readreg 300) from rfl)]
    exact exec_notConfigured hv rfl
  · have hrsv : rsvField 0x0071 = 0 := by decide
    have hop : opField 0x0071 = 1 := by decide
    rw [performCommand_of_ok (decode_of_op_config (c := ⟨0x0071, d⟩) hrsv hop)]
    exact exec_alreadyConfigured hv rfl

/-- Settles O48: on a block configured with a legal width the only response of an ADD, and of a REDUCE, is OK. -/
theorem configuredAddAndReduceNeverFail : Obligations.ConfiguredAddAndReduceNeverFail := by
  unfold Obligations.ConfiguredAddAndReduceNeverFail
  intro s hinv hv i hi
  have hc := hinv.configured hv
  obtain ⟨key, rfl⟩ | rfl := hi
  · exact ⟨_, _, exec_add_of_configured hc key, lastResponse_respond .., rfl⟩
  · exact ⟨_, _, exec_reduce_of_configured hc, lastResponse_respond .., rfl⟩

end Sys2Proof.Machine
end

section
/-! SUPPORT. The obligation of 70_reset_and_hazards.md. -/

namespace Sys2Proof.Machine

/-- Settles O25: CONFIG leaves the array cleared, so a REDUCE and an exact host's estimate are those of a cleared array, with
`2 ^ w * 2 ^ 63` for `2 ^ (w + 63)`. -/
theorem afterConstruction : Obligations.AfterConstruction := by
  unfold Obligations.AfterConstruction
  intro w s hv h8 h20
  have hconfig := exec_config_of_legal hv h8 h20
  obtain ⟨hc, hw, hreg⟩ := configured_of_exec_config hv h8 h20 hconfig
  have hzero : ∀ i, (respond .ok 0 0 0 (construct w s)).reg.read i = 0 := fun i => by rw [hreg, Memory.read_cleared]
  have hreduce := exec_reduce_of_cleared hc hzero
  rw [hw] at hreduce
  rw [pow_add]
  exact ⟨_, hconfig, hc.1, hw, hzero, hreduce, fun num hnum => hnum.countOfResponse_of_cleared h20 _ _⟩

end Sys2Proof.Machine
end

section
/-! SUPPORT. The fields of an encoded command, the decoder's answer to a reserved word, what each mnemonic assembles
to, and the control words of each opcode as a set. -/

namespace Sys2Proof

open Machine

/-! ### The fields of an encoded command -/

theorem rsvField_encode (i : Instr) : rsvField (encode i).cw = 0 := by
  have := i.imm6.isLt
  have := i.opcode.isLt
  rw [rsvField_eq, encode_cw_toNat]; omega

theorem opField_encode (i : Instr) : opField (encode i).cw = i.opcode.toNat := by
  have := i.opcode.isLt
  rw [opField_eq, encode_cw_toNat]; omega

theorem immField_encode (i : Instr) : immField (encode i).cw = i.imm6.toNat := by
  have := i.imm6.isLt
  have := i.opcode.isLt
  rw [immField_eq, encode_cw_toNat]; omega

/-- R51: the immediate field holds every operand that the assembler lets through. -/
theorem toNat_immediate {n : Nat} (h : n ≤ 63) : (BitVec.ofNat 6 n).toNat = n := by
  rw [BitVec.toNat_ofNat]
  exact Nat.mod_eq_of_lt (by omega)

/-- Settles O1: an encoded command has its opcode and its immediate in the fields the decoder reads, and no reserved
bit. -/
theorem decodeOfEncodeIsTheCommand : Obligations.DecodeOfEncodeIsTheCommand := by
  unfold Obligations.DecodeOfEncodeIsTheCommand
  intro i hwf
  have hrsv := rsvField_encode i
  have himm := immField_encode i
  have hop := opField_encode i
  cases i with
  | config width =>
    have hwidth := toNat_immediate (of_decide_eq_true hwf)
    rw [decode_of_op_config hrsv hop, himm, Instr.imm6, hwidth]
  | split n word =>
    have hn := toNat_immediate (of_decide_eq_true hwf)
    rw [decode_of_op_split hrsv hop, himm, Instr.imm6, hn]
    rfl
  | add key => exact decode_of_op_add hrsv himm hop
  | reduce => exact decode_of_op_reduce hrsv himm hop
  | readreg index => exact decode_of_op_readreg hrsv himm hop
  | status => exact decode_of_op_status hrsv himm hop
  | clz word => exact decode_of_op_clz hrsv himm hop

/-! ### The illegal words -/

theorem decode_of_reservedBits {c : Command} (h : rsvField c.cw ≠ 0) : decode c = .error .reservedBits := if_pos h

theorem decode_of_reservedOpcode {c : Command} (hrsv : rsvField c.cw = 0) (hop : opField c.cw = 0 ∨ 8 ≤ opField c.cw) :
    decode c = .error .reservedOpcode := by
  obtain ⟨-, h | h | ⟨-, h⟩ | ⟨-, h2, h6, -⟩ | ⟨-, e⟩⟩ | ⟨hne, -⟩ := decode_cases c
  · omega
  · omega
  · omega
  · omega
  · exact e
  · exact absurd hrsv hne

/-- Settles O3: with a given data word each decodes by evaluation; the other answers do not depend on the data word. -/
theorem wordsWrittenOutBitByBitDecode : Obligations.WordsWrittenOutBitByBitDecode := by
  unfold Obligations.WordsWrittenOutBitByBitDecode
  have hbits : rsvField 0b111111_000000_0111 ≠ 0 := by decide
  have hrsv : rsvField 0b000000_000000_1000 = 0 := by decide
  have hop : 8 ≤ opField 0b000000_000000_1000 := by decide
  exact ⟨fun d => (decode_ignores_data (.inl rfl) d 0).trans rfl, rfl,
    fun d => (decode_ignores_data (.inr (.inl rfl)) d 0).trans rfl, rfl,
    fun d => (decode_ignores_data (.inr (.inr rfl)) d 0).trans rfl, rfl, rfl,
    fun d => (decode_ignores_data (.inr (.inr rfl)) d 0).trans rfl,
    fun d => decode_of_reservedBits hbits, fun d => decode_of_reservedOpcode hrsv (.inr hop)⟩

/-! ### What each mnemonic assembles to, by its range (R58) -/

theorem assembleWith_config (w : Nat) :
    assembleWith "CONFIG".toList [w] = inRange (decide (w ≤ 63)) (encode (.config w)) := rfl

theorem assembleWith_add (key : Nat) :
    assembleWith "ADD".toList [key] = inRange (decide (key < 2 ^ 64)) (encode (.add (BitVec.ofNat 64 key))) := rfl

theorem assembleWith_readreg (index : Nat) :
    assembleWith "READREG".toList [index] =
      inRange (decide (index < 2 ^ 64)) (encode (.readreg (BitVec.ofNat 64 index))) := rfl

theorem assembleWith_clz (word : Nat) :
    assembleWith "CLZ".toList [word] = inRange (decide (word < 2 ^ 64)) (encode (.clz (BitVec.ofNat 64 word))) := rfl

theorem assembleWith_split (n word : Nat) :
    assembleWith "SPLIT".toList [n, word] =
      inRange (decide (n ≤ 63) && decide (word < 2 ^ 64)) (encode (.split n (BitVec.ofNat 64 word))) := rfl

theorem assembleWith_word (cw d : Nat) :
    assembleWith ".WORD".toList [cw, d] =
      inRange (decide (cw < 2 ^ 16) && decide (d < 2 ^ 64)) ⟨BitVec.ofNat 16 cw, BitVec.ofNat 64 d⟩ := rfl

/-- R58: a number that is a bit vector's is in the range of its width. -/
theorem decide_toNat_lt {n : Nat} (x : BitVec n) : decide (x.toNat < 2 ^ n) = true := decide_eq_true x.isLt

theorem decide_lt_eq_false {k m : Nat} (h : m ≤ k) : decide (k < m) = false := decide_eq_false (Nat.not_lt.2 h)

/-- Settles O7: each clause is the equation of its mnemonic, and an operand given as a word is in range. -/
theorem assemblerRangesAndEncodings : Obligations.AssemblerRangesAndEncodings := by
  unfold Obligations.AssemblerRangesAndEncodings
  refine ⟨assembleWith_config, fun n word => ?_, fun word => ⟨?_, ?_, ?_⟩, fun k hk n => ⟨?_, ?_, ?_, ?_⟩, ⟨rfl, rfl⟩,
    fun c => ?_⟩
  · rw [assembleWith_split, decide_toNat_lt, Bool.and_true, BitVec.ofNat_toNat, BitVec.setWidth_eq]
    rfl
  · rw [assembleWith_add, decide_toNat_lt, BitVec.ofNat_toNat, BitVec.setWidth_eq]; rfl
  · rw [assembleWith_readreg, decide_toNat_lt, BitVec.ofNat_toNat, BitVec.setWidth_eq]; rfl
  · rw [assembleWith_clz, decide_toNat_lt, BitVec.ofNat_toNat, BitVec.setWidth_eq]; rfl
  · rw [assembleWith_add, decide_lt_eq_false hk]; rfl
  · rw [assembleWith_readreg, decide_lt_eq_false hk]; rfl
  · rw [assembleWith_clz, decide_lt_eq_false hk]; rfl
  · rw [assembleWith_split, decide_lt_eq_false hk, Bool.and_false]; rfl
  · rw [assembleWith_word, decide_toNat_lt, decide_toNat_lt, BitVec.ofNat_toNat, BitVec.ofNat_toNat, BitVec.setWidth_eq,
      BitVec.setWidth_eq]
    rfl

/-! ### Counting the control words -/

/-- The control words that spell a command with this opcode, as numbers (R53, R54): any immediate for CONFIG and SPLIT,
immediate 0 for the other five. -/
def wordsOf (op : Nat) : Finset Nat :=
  if op = 1 ∨ op = 7 then (Finset.range 64).image (16 * · + op)
  else if 2 ≤ op ∧ op ≤ 6 then {op}
  else ∅

theorem mem_wordsOf {k op : Nat} :
    k ∈ wordsOf op ↔ k < 1024 ∧ k % 16 = op ∧ (op = 1 ∨ op = 7 ∨ k / 16 = 0 ∧ 2 ≤ op ∧ op ≤ 6) := by
  unfold wordsOf
  split
  · next h =>
    rw [Finset.mem_image]
    constructor
    · rintro ⟨n, hn, rfl⟩
      have := Finset.mem_range.1 hn
      omega
    · intro hk
      exact ⟨k / 16, Finset.mem_range.2 (by omega), by omega⟩
  · next h =>
    split
    · rw [Finset.mem_singleton]; omega
    · next h' => exact iff_of_false (Finset.notMem_empty k) (by omega)

theorem card_wordsOf_of_immediate {op : Nat} (h : op = 1 ∨ op = 7) : (wordsOf op).card = 64 := by
  rw [wordsOf, if_pos h, Finset.card_image_of_injective _ fun a b hab => by simpa using hab, Finset.card_range]

/-- The opcode of a decoded command is the one in the control word (R53). -/
theorem opcode_of_decode {c : Command} {i : Instr} (h : decode c = .ok i) : i.opcode.toNat = opField c.cw := by
  obtain ⟨-, ⟨hop, e⟩ | ⟨hop, e⟩ | ⟨-, e⟩ | ⟨-, -, -, e⟩ | ⟨-, e⟩⟩ | ⟨-, e⟩ := decode_cases c
  · rw [e] at h; cases h; exact hop.symm
  · rw [e] at h; cases h; exact hop.symm
  · obtain ⟨hop, e⟩ | ⟨hop, e⟩ | ⟨hop, e⟩ | ⟨hop, e⟩ | ⟨hop, e⟩ := e <;> rw [e] at h <;> cases h <;> exact hop.symm
  · rw [e] at h; cases h
  · rw [e] at h; cases h
  · rw [e] at h; cases h

/-- `wordsOf` is what the decoder says, with any data word. -/
theorem decode_opcode_iff {k : Nat} (hk : k < 65536) (d : Word) (op : Nat) :
    (∃ i, decode ⟨BitVec.ofNat 16 k, d⟩ = .ok i ∧ i.opcode.toNat = op) ↔ k ∈ wordsOf op := by
  have hcw : (BitVec.ofNat 16 k).toNat = k := by rw [BitVec.toNat_ofNat]; exact Nat.mod_eq_of_lt hk
  have hillegal := decode_eq_error_iff ⟨BitVec.ofNat 16 k, d⟩
  simp only [rsvField_eq, immField_eq, opField_eq, hcw] at hillegal
  have hopcode {i : Instr} (hd : decode ⟨BitVec.ofNat 16 k, d⟩ = .ok i) : i.opcode.toNat = k % 16 := by
    rw [opcode_of_decode hd, opField_eq, hcw]
  rw [mem_wordsOf]
  constructor
  · rintro ⟨i, hd, hop⟩
    rw [hopcode hd] at hop
    have hlegal := mt hillegal.2 (by simp [hd])
    omega
  · intro hmem
    cases hd : decode ⟨BitVec.ofNat 16 k, d⟩ with
    | error e => have := hillegal.1 ⟨e, hd⟩; omega
    | ok i => exact ⟨i, rfl, by rw [hopcode hd]; omega⟩

/-- The control words that spell a command. -/
def legalWords : Finset Nat := (Finset.Icc 1 7).biUnion wordsOf

theorem decode_ok_iff {k : Nat} (hk : k < 65536) (d : Word) :
    (∃ i, decode ⟨BitVec.ofNat 16 k, d⟩ = .ok i) ↔ k ∈ legalWords := by
  rw [legalWords, Finset.mem_biUnion]
  constructor
  · rintro ⟨i, hd⟩
    have hmem := (decode_opcode_iff hk d i.opcode.toNat).1 ⟨i, hd, rfl⟩
    refine ⟨_, Finset.mem_Icc.2 ?_, hmem⟩
    rw [mem_wordsOf] at hmem
    omega
  · rintro ⟨op, -, hmem⟩
    obtain ⟨i, hd, -⟩ := (decode_opcode_iff hk d op).2 hmem
    exact ⟨i, hd⟩

theorem lt_of_mem_legalWords {k : Nat} (h : k ∈ legalWords) : k < 65536 := by
  rw [legalWords, Finset.mem_biUnion] at h
  obtain ⟨op, -, hmem⟩ := h
  rw [mem_wordsOf] at hmem
  omega

/-- No control word spells two commands, so the counts add up: 64 for CONFIG and for SPLIT, and five more. -/
theorem card_legalWords : legalWords.card = 133 := by
  rw [legalWords, Finset.card_biUnion fun a _ b _ hab => Finset.disjoint_left.2 fun k ha hb => by
    rw [mem_wordsOf] at ha hb
    omega]
  rfl

/-- A count over a range is the size of the set that the predicate decides. -/
theorem countP_range_eq_card {n : Nat} {p : Nat → Bool} {words : Finset Nat} (hlt : ∀ k, k ∈ words → k < n)
    (h : ∀ k, k < n → (p k = true ↔ k ∈ words)) : (List.range n).countP p = words.card := by
  have hwords : words = ((List.range n).filter p).toFinset := by
    ext k
    rw [List.mem_toFinset, List.mem_filter, List.mem_range]
    exact ⟨fun hk => ⟨hlt k hk, (h k (hlt k hk)).2 hk⟩, fun ⟨hk, hp⟩ => (h k hk).1 hp⟩
  rw [hwords, List.toFinset_card_of_nodup (List.nodup_range.filter p), List.countP_eq_length_filter]

/-- Settles O5: the words that spell an opcode are `wordsOf` it, and the illegal ones are all the others. -/
theorem controlWordsCountedByCommand : Obligations.ControlWordsCountedByCommand := by
  unfold Obligations.ControlWordsCountedByCommand
  intro d spelling
  have hspelling (op : Nat) : spelling op = (wordsOf op).card := by
    refine countP_range_eq_card (fun k hk => ?_) fun k hk => ?_
    · rw [mem_wordsOf] at hk; omega
    · rw [← decode_opcode_iff hk d op]
      cases decode ⟨BitVec.ofNat 16 k, d⟩ <;> simp
  have hconfig := card_wordsOf_of_immediate (.inl (rfl : 1 = 1))
  have hsplit := card_wordsOf_of_immediate (.inr (rfl : 7 = 7))
  refine ⟨(hspelling 1).trans hconfig, (hspelling 7).trans hsplit, hspelling 2, hspelling 3, hspelling 4, hspelling 5,
    hspelling 6, ?_⟩
  rw [countP_range_eq_card (words := Finset.range 65536 \ legalWords) (fun k hk => ?_) fun k hk => ?_]
  · rw [Finset.card_sdiff_of_subset fun k hk => Finset.mem_range.2 (lt_of_mem_legalWords hk), card_legalWords,
      Finset.card_range]
  · exact Finset.mem_range.1 (Finset.mem_sdiff.1 hk).1
  · rw [Finset.mem_sdiff, ← decode_ok_iff hk d, Finset.mem_range]
    cases decode ⟨BitVec.ofNat 16 k, d⟩ <;> simp [hk]

end Sys2Proof
end

section
/-! SUPPORT. A step by the host's next action, one equation each; and the invariant through each operation at the ports,
each effect of a command and each step. -/

namespace Sys2Proof.Machine

open Host.Outcome

/-! ### One equation for each way a step can go -/

section
variable {s : State} {c : Command} {rest : List HostAction}

theorem step_of_idle (h : s.inputs = []) : step s = next (deliver s) := by
  simp [step, stepPorts, h]

/-- `cmd_ready` is 1: the command is accepted and performed (R122). -/
theorem step_of_accepted (h : s.inputs = .command c :: rest) (hport : s.rspPort = none) :
    step s = performCommand c { s with inputs := rest } := by
  simp [step, stepPorts, h, acceptCommand, cmdReady, rspValid, hport]

/-- `cmd_ready` is 0: the command waits (R122). -/
theorem step_of_waiting (h : s.inputs = .command c :: rest) (hport : s.rspPort.isSome = true) :
    step s = next (waitCommand c rest s) := by
  simp [step, stepPorts, h, acceptCommand, cmdReady, rspValid, hport]

theorem step_of_rst (h : s.inputs = .rst :: rest) : step s = next (applyReset { s with inputs := rest }) := by
  simp [step, stepPorts, h]

theorem step_of_rspReady {level : Bool} (h : s.inputs = .rspReady level :: rest) :
    step s = next (setRspReady level { s with inputs := rest }) := by
  simp [step, stepPorts, h]

end

/-! ### The invariant through each operation at the ports -/

/-- Delivering makes `PortOk` true: a response is left at the port only where the host does not take it. So the rest of
the invariant, which is what it says with `rsp_ready` at 0, is enough before. -/
theorem inv_deliver {s : State} (h : Inv { s with rspReady := false }) : Inv (deliver s) := by
  obtain ⟨e, hheld⟩ | ⟨r, -, hport, e⟩ := deliver_cases s <;> rw [e]
  · refine ⟨h.cfg, h.array, h.unconfigured, h.canonical, fun hport => ?_, h.offered, h.received⟩
    obtain hready | hnone := hheld
    · exact hready
    · rw [hnone] at hport; cases hport
  · refine ⟨h.cfg, h.array, h.unconfigured, h.canonical, nofun, nofun, fun r' hr' => ?_⟩
    obtain hr' | hr' := List.mem_append.1 hr'
    · exact h.received r' hr'
    · rw [List.mem_singleton.1 hr']; exact h.offered r hport

theorem Inv.withRspReadyLow {s : State} (h : Inv s) : Inv { s with rspReady := false } :=
  ⟨h.cfg, h.array, h.unconfigured, h.canonical, fun _ => rfl, h.offered, h.received⟩

theorem Inv.after_deliver {s : State} (h : Inv s) : Inv (deliver s) := inv_deliver h.withRspReadyLow

theorem Inv.after_setRspReady {s : State} (h : Inv s) (level : Bool) : Inv (setRspReady level s) :=
  inv_deliver (s := { s with rspReady := level }) h.withRspReadyLow

theorem Inv.after_offer {s : State} (h : Inv s) {r : Response} (hr : ResponseOk r) : Inv (offer r s) :=
  inv_deliver (s := { s with rspPort := some r })
    ⟨h.cfg, h.array, h.unconfigured, h.canonical, fun _ => rfl, fun _ e => Option.some.inj e ▸ hr, h.received⟩

/-- After a reset the invariant speaks only of the responses the host has received (R30). -/
theorem inv_applyReset {s : State} (h : ∀ r, r ∈ s.delivered → ResponseOk r) : Inv (applyReset s) :=
  ⟨⟨nofun, fun _ => rfl⟩, nofun, fun _ => ⟨s.draw, rfl⟩, Memory.wf_nil _, nofun, nofun, h⟩

theorem Inv.after_waitCommand {s : State} (h : Inv s) (c : Command) (rest : List HostAction) :
    Inv (waitCommand c rest s) := by
  obtain ⟨e, -⟩ | ⟨later, -, e⟩ | ⟨level, later, -, e⟩ := waitCommand_cases c rest s <;> rw [e]
  · exact h.after_deliver
  · exact inv_applyReset h.received
  · exact (h.withInputs _).after_setRspReady level

/-! ### The invariant through a command -/

/-- R69: a legal width makes a block that meets the invariant. -/
theorem Inv.after_construct {s : State} (h : Inv s) {w : Nat} (h8 : 8 ≤ w) (h20 : w ≤ 20) : Inv (construct w s) := by
  have hw : width (construct w s) = w := width_construct h20 s
  refine ⟨⟨fun _ => ⟨?_, ?_⟩, nofun⟩, fun _ => ⟨rfl, fun _ _ => Nat.zero_le _, fun _ _ => rfl⟩, nofun,
    Memory.cleared_wf, h.port, h.offered, h.received⟩
  · exact h8.trans_eq hw.symm
  · exact hw.trans_le h20

/-- R74: at a legal width a key maps to an addressable register. -/
theorem Configured.keyIndex_lt_numRegs {s : State} (hc : Configured s) (key : Word) :
    keyIndex key (width s) < numRegs s := by
  obtain ⟨-, -, h20⟩ := hc
  exact head_lt key (by omega)

/-- R24, R25: an ADD raises an addressable register, to a rank of at most `65 - W`. -/
theorem Inv.arrayOk_raised {s : State} (h : Inv s) (hv : s.cfg.valid = true) {key : Word} {old : RegVal}
    (hold : readCell s (keyIndex key (width s)) = .ok old) :
    ArrayOk (raiseCell s (keyIndex key (width s)) old (keyRank key (width s))) := by
  intro _
  have hrank := keyRank_le key (width s)
  have hindex := (h.configured hv).keyIndex_lt_numRegs key
  have hread := h.read_raised (key := key) hv hold
  obtain ⟨hfill, hbound, hzero⟩ := h.array hv
  rw [numRegs_raiseCell, width_raiseCell]
  refine ⟨by rw [raiseCell_fill, hfill], fun i hi => ?_, fun i hi => BitVec.eq_of_toNat_eq ?_⟩
  · have := hbound i hi
    rw [hread]; split <;> omega
  · rw [hread, if_neg (by omega), hzero i hi]

theorem Inv.after_effect {i : Instr} {s u : State} (h : Inv s) (he : Effect i s u) : Inv u := by
  cases he with
  | unchanged => exact h
  | constructed w _ _ h8 h20 => exact h.after_construct h8 h20
  | raised key old _ hv _ _ hold =>
    have hcell := (h.configured hv).keyIndex_lt_numCells key
    refine ⟨?_, h.arrayOk_raised hv hold, fun hv' => ?_, raiseCell_wf h.canonical hcell _ _, ?_, ?_, ?_⟩
    · rw [raiseCell_cfg]; exact h.cfg
    · rw [raiseCell_cfg, hv] at hv'; cases hv'
    · rw [PortOk, raiseCell_rspPort, raiseCell_rspReady]; exact h.port
    · rw [raiseCell_rspPort]; exact h.offered
    · rw [raiseCell_delivered]; exact h.received

theorem Inv.after_performCommand {c : Command} {s t : State} (h : Inv s) (ht : performCommand c s = next t) :
    Inv t := by
  obtain ⟨st, a, b, x, u, rfl, hu, hrejected⟩ := performCommand_inv ht
  have hinv : Inv u := by
    obtain rfl | ⟨i, -, he⟩ := hu
    · exact h
    · exact h.after_effect he
  exact hinv.after_offer ⟨st.code_le, fun hne => (hrejected (mt (congrArg Status.code) hne)).2⟩

/-! ### The obligations of 10_state.md: the invariant -/

/-- Settles O54: the block right after power-on is one that a reset left, with no response received. -/
theorem invariantAtReset : Obligations.InvariantAtReset := by
  unfold Obligations.InvariantAtReset
  exact inv_applyReset (s := { State.reset with draw := 0 }) nofun

/-- Settles O55: a step is a performed command, which completes, or an action at the ports, and each keeps the
invariant. -/
theorem stepKeepsTheInvariant : Obligations.StepKeepsTheInvariant := by
  unfold Obligations.StepKeepsTheInvariant
  intro s h
  obtain ⟨-, e⟩ | ⟨c, rest, -, -, e⟩ | ⟨c, rest, r, -, -, e⟩ | ⟨rest, -, e⟩ | ⟨level, rest, -, e⟩ := step_cases s <;>
    rw [e]
  · exact ⟨_, rfl, h.after_deliver⟩
  · obtain ⟨t, ht⟩ := (h.withInputs rest).performCommand_completes c
    exact ⟨t, ht, (h.withInputs rest).after_performCommand ht⟩
  · exact ⟨_, rfl, h.after_waitCommand c rest⟩
  · exact ⟨_, rfl, inv_applyReset h.received⟩
  · exact ⟨_, rfl, (h.withInputs rest).after_setRspReady level⟩

end Sys2Proof.Machine
end

section
/-! SUPPORT. Two states a host cannot tell apart stay so through each operation at the ports, a reset and a command. -/

namespace Sys2Proof.Machine

open Host.Outcome

variable {s t : State}

/-! ### The operations at the ports -/

theorem SameToHost.withInputs (h : SameToHost s t) (inputs : List HostAction) :
    SameToHost { s with inputs := inputs } { t with inputs := inputs } := by
  obtain ⟨hcfg, -, hready, hport, hdel, hread⟩ := h
  exact ⟨hcfg, rfl, hready, hport, hdel, hread⟩

theorem SameToHost.after_deliver (h : SameToHost s t) : SameToHost (deliver s) (deliver t) := by
  obtain ⟨hcfg, hin, hready, hport, hdel, hread⟩ := h
  obtain ⟨e, hready' | hport'⟩ | ⟨r, hready', hport', e⟩ := deliver_cases s <;> rw [e]
  · rw [deliver_of_held t (hready ▸ hready')]
    exact ⟨hcfg, hin, hready, hport, hdel, hread⟩
  · rw [deliver_of_none t (hport ▸ hport')]
    exact ⟨hcfg, hin, hready, hport, hdel, hread⟩
  · rw [deliver_of_ready t (hready ▸ hready') (hport ▸ hport')]
    exact ⟨hcfg, hin, hready, rfl, congrArg (· ++ [r]) hdel, hread⟩

theorem SameToHost.after_setRspReady (h : SameToHost s t) (level : Bool) :
    SameToHost (setRspReady level s) (setRspReady level t) := by
  obtain ⟨hcfg, hin, -, hport, hdel, hread⟩ := h
  exact SameToHost.after_deliver (s := { s with rspReady := level }) (t := { t with rspReady := level })
    ⟨hcfg, hin, rfl, hport, hdel, hread⟩

theorem SameToHost.after_respond (h : SameToHost s t) (st : Status) (a b : Word) (x : FixSum) :
    SameToHost (respond st a b x s) (respond st a b x t) := by
  obtain ⟨hcfg, hin, hready, -, hdel, hread⟩ := h
  exact SameToHost.after_deliver (s := { s with rspPort := some _ }) (t := { t with rspPort := some _ })
    ⟨hcfg, hin, hready, rfl, hdel, hread⟩

/-- The contents that two resets draw may differ: an unconfigured block's are not observed (R30). -/
theorem SameToHost.after_applyReset (h : SameToHost s t) : SameToHost (applyReset s) (applyReset t) := by
  obtain ⟨-, hin, hready, -, hdel, -⟩ := h
  exact ⟨rfl, hin, hready, rfl, hdel, nofun⟩

theorem SameToHost.after_waitCommand (h : SameToHost s t) (c : Command) (rest : List HostAction) :
    SameToHost (waitCommand c rest s) (waitCommand c rest t) := by
  cases rest with
  | nil => exact h.after_deliver
  | cons action later =>
    cases action with
    | command _ => exact h.after_deliver
    | rst => exact (h.withInputs (.command c :: later)).after_applyReset
    | rspReady level => exact (h.withInputs (.command c :: later)).after_setRspReady level

/-! ### The commands -/

theorem SameToHost.width_eq (h : SameToHost s t) : width t = width s := congrArg (·.w.toNat) h.1.symm

theorem SameToHost.numRegs_eq (h : SameToHost s t) : numRegs t = numRegs s := congrArg (2 ^ ·) h.width_eq

/-- On a configured block the invariant fixes every cell that the host cannot address, so the arrays are equal (R25). -/
theorem SameToHost.reg_eq (h : SameToHost s t) (hs : Inv s) (ht : Inv t) (hv : s.cfg.valid = true) :
    t.reg = s.reg := by
  have hm := h.numRegs_eq
  obtain ⟨hcfg, -, -, -, -, hread⟩ := h
  obtain ⟨hfill, -, hzero⟩ := hs.array hv
  obtain ⟨hfill', -, hzero'⟩ := ht.array (hcfg ▸ hv)
  refine Memory.ext_of_read ht.canonical hs.canonical (hfill'.trans hfill.symm) fun i => ?_
  by_cases hi : i < numRegs s
  · exact (hread hv i hi).symm
  · rw [hzero i (by omega), hzero' i (by omega)]

theorem raiseCell_reg_congr (h : t.reg = s.reg) (i : Nat) (old : RegVal) (rk : Nat) :
    (raiseCell t i old rk).reg = (raiseCell s i old rk).reg := by
  simp only [raiseCell]
  split
  · rw [writeCell_reg, writeCell_reg, h]
  · exact h

theorem SameToHost.after_raiseCell (h : SameToHost s t) (hreg : t.reg = s.reg) (i : Nat) (old : RegVal) (rk : Nat) :
    SameToHost (raiseCell s i old rk) (raiseCell t i old rk) := by
  obtain ⟨hcfg, hin, hready, hport, hdel, -⟩ := h
  simp only [SameToHost, raiseCell_cfg, raiseCell_inputs, raiseCell_rspReady, raiseCell_rspPort, raiseCell_delivered,
    raiseCell_reg_congr hreg]
  exact ⟨hcfg, hin, hready, hport, hdel, fun _ _ _ => trivial⟩

theorem SameToHost.after_construct (h : SameToHost s t) (w : Nat) : SameToHost (construct w s) (construct w t) := by
  obtain ⟨-, hin, hready, hport, hdel, -⟩ := h
  exact ⟨rfl, hin, hready, hport, hdel, fun _ _ _ => rfl⟩

/-- A command that needs a configured block, on one: its result depends on CFG and REG, which are the same. -/
theorem SameToHost.after_exec_of_needsConfig (h : SameToHost s t) (hs : Inv s) (ht : Inv t) (hv : s.cfg.valid = true)
    {i : Instr} (hi : needsConfig i = true) : ∃ s' t', exec i s = next s' ∧ exec i t = next t' ∧ SameToHost s' t' := by
  have hreg := h.reg_eq hs ht hv
  have hw := h.width_eq
  have hm := h.numRegs_eq
  have hc := hs.configured hv
  have hc' := ht.configured (h.1 ▸ hv)
  obtain ⟨d, rfl | rfl | rfl⟩ := eq_of_needsConfig hi
  · refine ⟨_, _, exec_add_of_configured hc d, exec_add_of_configured hc' d, ?_⟩
    rw [hreg, hw]
    exact (h.after_raiseCell hreg _ _ _).after_respond _ _ _ _
  · by_cases hd : d.toNat < 2 ^ width s
    · refine ⟨_, _, exec_readreg_of_lt hc hd, exec_readreg_of_lt hc' (hw ▸ hd), ?_⟩
      rw [hreg]
      exact h.after_respond _ _ _ _
    · rw [Nat.not_lt] at hd
      exact ⟨_, _, exec_readreg_badArg hv hd, exec_readreg_badArg hc'.1 (hw ▸ hd), h.after_respond _ _ _ _⟩
  · refine ⟨_, _, exec_reduce_of_configured hc, exec_reduce_of_configured hc', ?_⟩
    rw [hreg, hm]
    exact h.after_respond _ _ _ _

theorem SameToHost.after_exec (h : SameToHost s t) (hs : Inv s) (ht : Inv t) (i : Instr) :
    ∃ s' t', exec i s = next s' ∧ exec i t = next t' ∧ SameToHost s' t' := by
  have hcfg : s.cfg = t.cfg := h.1
  by_cases hi : needsConfig i = true
  · cases hv : s.cfg.valid with
    | true => exact h.after_exec_of_needsConfig hs ht hv hi
    | false =>
      exact ⟨_, _, exec_notConfigured hv hi, exec_notConfigured (hcfg ▸ hv) hi, h.after_respond _ _ _ _⟩
  cases i with
  | config w =>
    cases hv : s.cfg.valid with
    | true =>
      exact ⟨_, _, exec_alreadyConfigured hv rfl, exec_alreadyConfigured (hcfg ▸ hv) rfl, h.after_respond _ _ _ _⟩
    | false =>
      have hv' : t.cfg.valid = false := hcfg ▸ hv
      by_cases hw : 8 ≤ w ∧ w ≤ 20
      · exact ⟨_, _, exec_config_of_legal hv hw.1 hw.2, exec_config_of_legal hv' hw.1 hw.2,
          (h.after_construct w).after_respond _ _ _ _⟩
      · have hw' : w < 8 ∨ 20 < w := by omega
        exact ⟨_, _, exec_config_badWidth hv hw', exec_config_badWidth hv' hw', h.after_respond _ _ _ _⟩
  | status =>
    refine ⟨_, _, exec_status_eq s, exec_status_eq t, ?_⟩
    rw [hcfg]
    exact h.after_respond _ _ _ _
  | clz word => exact ⟨_, _, exec_clz word s, exec_clz word t, h.after_respond _ _ _ _⟩
  | split n word =>
    by_cases hn : 1 ≤ n ∧ n ≤ 63
    · exact ⟨_, _, exec_split_of_defined hn.1 hn.2 word s, exec_split_of_defined hn.1 hn.2 word t,
        h.after_respond _ _ _ _⟩
    · have hn' : n = 0 ∨ 64 ≤ n := by omega
      exact ⟨_, _, exec_split_of_undefined hn' word s, exec_split_of_undefined hn' word t, h.after_respond _ _ _ _⟩
  | _ => exact absurd rfl hi

theorem SameToHost.after_performCommand (h : SameToHost s t) (hs : Inv s) (ht : Inv t) (c : Command) :
    ∃ s' t', performCommand c s = next s' ∧ performCommand c t = next t' ∧ SameToHost s' t' := by
  cases hd : decode c with
  | error e => exact ⟨_, _, performCommand_of_error hd s, performCommand_of_error hd t, h.after_respond _ _ _ _⟩
  | ok i =>
    rw [performCommand_of_ok hd, performCommand_of_ok hd]
    exact h.after_exec hs ht i

/-- Settles O58: the two states take the same action, since their inputs and ports are the same; a command answers from
CFG and, on a configured block, from an array that the invariant makes the same. -/
theorem unspecifiedCellsAreUnobservable : Obligations.UnspecifiedCellsAreUnobservable := by
  unfold Obligations.UnspecifiedCellsAreUnobservable
  intro s t hs ht h
  obtain ⟨-, hin, -, hport, -, -⟩ := id h
  cases hs_in : s.inputs with
  | nil => exact ⟨_, _, step_of_idle hs_in, step_of_idle (hin ▸ hs_in), h.after_deliver⟩
  | cons action rest =>
    have ht_in : t.inputs = action :: rest := hin ▸ hs_in
    cases action with
    | command c =>
      cases hs_port : s.rspPort with
      | none =>
        rw [step_of_accepted hs_in hs_port, step_of_accepted ht_in (hport ▸ hs_port)]
        exact (h.withInputs rest).after_performCommand (hs.withInputs rest) (ht.withInputs rest) c
      | some r =>
        have hheld := Option.isSome_of_eq_some hs_port
        exact ⟨_, _, step_of_waiting hs_in hheld, step_of_waiting ht_in (hport ▸ hheld), h.after_waitCommand c rest⟩
    | rst => exact ⟨_, _, step_of_rst hs_in, step_of_rst ht_in, (h.withInputs rest).after_applyReset⟩
    | rspReady level =>
      exact ⟨_, _, step_of_rspReady hs_in, step_of_rspReady ht_in, (h.withInputs rest).after_setRspReady level⟩

end Sys2Proof.Machine
end

section
/-! SUPPORT. The handshake: what a performed command does at the ports, what a waiting command and a change of
`rsp_ready` do, and one response per command over a list of commands. -/

namespace Sys2Proof.Machine

open Host.Outcome

/-! ### A performed command at the ports -/

/-- No command touches a port but through its response. -/
theorem Effect.ports {i : Instr} {s u : State} (he : Effect i s u) :
    u.inputs = s.inputs ∧ u.rspReady = s.rspReady ∧ u.rspPort = s.rspPort ∧ u.delivered = s.delivered ∧
      u.draw = s.draw := by
  cases he with
  | unchanged => simp
  | constructed w => simp
  | raised key old => simp

/-- A performed command offers one response, and leaves the inputs and the ready level alone (R56). -/
theorem performCommand_ports {c : Command} {s t : State} (h : performCommand c s = next t) :
    t.inputs = s.inputs ∧ t.rspReady = s.rspReady ∧ ∃ r, lastResponse t = some r ∧
      (s.rspReady = true → t.delivered = s.delivered ++ [r] ∧ t.rspPort = none) ∧
      (s.rspReady = false → t.delivered = s.delivered ∧ t.rspPort = some r) := by
  obtain ⟨st, a, b, x, u, rfl, hu, -⟩ := performCommand_inv h
  obtain ⟨hin, hready, hdel⟩ : u.inputs = s.inputs ∧ u.rspReady = s.rspReady ∧ u.delivered = s.delivered := by
    obtain rfl | ⟨i, -, he⟩ := hu
    · exact ⟨rfl, rfl, rfl⟩
    · obtain ⟨hin, hready, -, hdel, -⟩ := he.ports
      exact ⟨hin, hready, hdel⟩
  refine ⟨(respond_inputs ..).trans hin, (respond_rspReady ..).trans hready, _, lastResponse_respond .., fun h => ?_,
    fun h => ?_⟩
  · rw [respond, offer_of_ready u _ (hready.trans h), hdel]
    exact ⟨rfl, rfl⟩
  · rw [respond, offer_of_held u _ (hready.trans h), hdel]
    exact ⟨rfl, rfl⟩

/-! ### The level of `rsp_ready` and a waiting command -/

/-- R49: raising the level delivers the response held. -/
theorem setRspReady_true_of_some {s : State} {r : Response} (h : s.rspPort = some r) :
    setRspReady true s = { s with rspReady := true, rspPort := none, delivered := s.delivered ++ [r] } :=
  deliver_of_ready { s with rspReady := true } rfl h

theorem setRspReady_of_none {s : State} (h : s.rspPort = none) (level : Bool) :
    setRspReady level s = { s with rspReady := level } :=
  deliver_of_none { s with rspReady := level } h

theorem setRspReady_false (s : State) : setRspReady false s = { s with rspReady := false } :=
  deliver_of_held { s with rspReady := false } rfl

/-- A command that waits, while the host does nothing at another port. -/
theorem waitCommand_of_no_action {rest : List HostAction} (h : rest = [] ∨ ∃ c later, rest = .command c :: later)
    (c : Command) (s : State) : waitCommand c rest s = deliver s := by
  obtain rfl | ⟨c', later, rfl⟩ := h <;> rfl

/-! ### The obligations on one step -/

/-- Settles O8: the accepted command is performed, and it is the command it decodes to. -/
theorem stepPerformsTheDecodedCommand : Obligations.StepPerformsTheDecodedCommand := by
  unfold Obligations.StepPerformsTheDecodedCommand
  intro s c rest i hin hport hd
  rw [step_of_accepted hin hport, performCommand_of_ok hd]

/-- Settles O9: each clause is the step's equation for its action, and then what the operation at the port does. -/
theorem stepWithoutACommandToPerform : Obligations.StepWithoutACommandToPerform := by
  unfold Obligations.StepWithoutACommandToPerform
  refine ⟨fun s hin hport => ?_, fun s hin hready => ?_, fun s r hin hready hport => ?_,
    fun s c rest e hin hport hd => ?_, fun s rest r hin hport => ?_, fun s rest hin hport => ?_, fun s rest hin => ?_,
    fun s c rest r hin hport => ?_, fun s c rest r hin hport => ?_,
    fun s c rest r hin hrest hport => ⟨fun hready => ?_, fun hready => ?_⟩, fun s rest => step_of_rst,
    fun s c rest r hin hport => ?_⟩
  · rw [step_of_idle hin, deliver_of_none s hport]
  · rw [step_of_idle hin, deliver_of_held s hready]
  · rw [step_of_idle hin, deliver_of_ready s hready hport]
  · rw [step_of_accepted hin hport, performCommand_of_error hd]; rfl
  · rw [step_of_rspReady hin]
    exact congrArg next (setRspReady_true_of_some (s := { s with inputs := rest }) hport)
  · rw [step_of_rspReady hin]
    exact congrArg next (setRspReady_of_none (s := { s with inputs := rest }) hport true)
  · rw [step_of_rspReady hin, setRspReady_false]
  · rw [step_of_waiting hin (Option.isSome_of_eq_some hport)]
    exact congrArg next (setRspReady_true_of_some (s := { s with inputs := .command c :: rest }) hport)
  · rw [step_of_waiting hin (Option.isSome_of_eq_some hport)]
    exact congrArg next (setRspReady_false { s with inputs := .command c :: rest })
  · rw [step_of_waiting hin (Option.isSome_of_eq_some hport), waitCommand_of_no_action hrest, deliver_of_held s hready]
  · rw [step_of_waiting hin (Option.isSome_of_eq_some hport), waitCommand_of_no_action hrest,
      deliver_of_ready s hready hport]
  · rw [step_of_waiting hin (Option.isSome_of_eq_some hport)]; rfl

/-- Settles O11: in either place `rst` is `applyReset`, with the inputs that stay offered. -/
theorem resetFromAnyState : Obligations.ResetFromAnyState := by
  unfold Obligations.ResetFromAnyState
  intro s hr
  obtain ⟨rest, hin⟩ | ⟨hport, c, rest, hin⟩ := hr
  · refine ⟨_, step_of_rst hin, rfl, rfl, fun _ => rfl, rfl, rfl, rfl, fun rest' h => ?_, fun c rest' h => ?_⟩
    · rw [hin] at h; cases h; rfl
    · rw [hin] at h; cases h
  · refine ⟨_, step_of_waiting hin hport, rfl, rfl, fun _ => rfl, rfl, rfl, rfl, fun rest' h => ?_, fun c rest' h => ?_⟩
    · rw [hin] at h; cases h
    · rw [hin] at h; cases h; rfl

/-! ### The handshake -/

theorem cmdValid_iff (s : State) : cmdValid s = true ↔ ∃ c rest, s.inputs = .command c :: rest := by
  unfold cmdValid
  split
  · next c rest h => exact iff_of_true rfl ⟨c, rest, h⟩
  · next h => exact iff_of_false nofun fun ⟨c, rest, e⟩ => h c rest e

theorem cmdReady_iff (s : State) : cmdReady s = true ↔ s.rspPort = none := by
  simp [cmdReady, rspValid]

theorem cmdReady_eq_false_iff (s : State) : cmdReady s = false ↔ s.rspPort.isSome = true := by
  simp [cmdReady, rspValid]

/-- R49: nothing is left at the port of a host that takes responses. -/
theorem Inv.rspPort_eq_none {s : State} (h : Inv s) (hready : s.rspReady = true) : s.rspPort = none := by
  by_contra hsome
  have hlow := h.port (Option.isSome_iff_ne_none.2 hsome)
  rw [hready] at hlow; cases hlow

/-- So with the invariant there is nothing to deliver. -/
theorem Inv.deliver_eq {s : State} (h : Inv s) : deliver s = s := by
  cases hready : s.rspReady with
  | true => exact deliver_of_none s (h.rspPort_eq_none hready)
  | false => exact deliver_of_held s hready

/-- R122: a waiting command stays the first the host offers. -/
theorem head?_inputs_waitCommand {s : State} {c : Command} {rest : List HostAction}
    (h : s.inputs = .command c :: rest) : (waitCommand c rest s).inputs.head? = s.inputs.head? := by
  obtain ⟨e, -⟩ | ⟨later, -, e⟩ | ⟨level, later, -, e⟩ := waitCommand_cases c rest s <;> rw [e]
  · rw [deliver_inputs]
  · rw [applyReset_inputs, h]; rfl
  · rw [setRspReady_inputs, h]; rfl

/-- Delivering frees the port only of the response it delivers. -/
theorem delivered_of_deliver_frees {s : State} {r : Response} (h : s.rspPort = some r)
    (hfree : (deliver s).rspPort = none) : (deliver s).delivered = s.delivered ++ [r] := by
  obtain ⟨e, -⟩ | ⟨r', -, hport, e⟩ := deliver_cases s <;> rw [e] at hfree ⊢
  · rw [h] at hfree; cases hfree
  · rw [h] at hport; cases hport; rfl

/-- Without a reset, a step frees the port only of a response it delivers. -/
theorem delivered_of_step_frees {s t : State} {r : Response} (hr : ¬ResetNext s) (h : step s = next t)
    (hport : s.rspPort = some r) (hfree : t.rspPort = none) : t.delivered = s.delivered ++ [r] := by
  obtain ⟨-, e⟩ | ⟨c, rest, -, hnone, -⟩ | ⟨c, rest, r', hin, -, e⟩ | ⟨rest, hin, -⟩ | ⟨level, rest, -, e⟩ :=
    step_cases s
  · rw [e] at h; cases h
    exact delivered_of_deliver_frees hport hfree
  · rw [hport] at hnone; cases hnone
  · rw [e] at h; cases h
    obtain ⟨e, -⟩ | ⟨later, rfl, -⟩ | ⟨level, later, -, e⟩ := waitCommand_cases c rest s
    · rw [e] at hfree ⊢
      exact delivered_of_deliver_frees hport hfree
    · exact absurd (.inr ⟨Option.isSome_of_eq_some hport, c, later, hin⟩) hr
    · rw [e] at hfree ⊢
      exact delivered_of_deliver_frees (s := { s with inputs := .command c :: later, rspReady := level }) hport hfree
  · exact absurd (.inl ⟨rest, hin⟩) hr
  · rw [e] at h; cases h
    exact delivered_of_deliver_frees (s := { s with inputs := rest, rspReady := level }) hport hfree

/-- Settles O10: an accepted command offers its one response, a waiting one stays first, and the port is freed by a
delivery or a reset. -/
theorem handshakeLosesAndDuplicatesNothing : Obligations.HandshakeLosesAndDuplicatesNothing := by
  unfold Obligations.HandshakeLosesAndDuplicatesNothing
  intro s t hinv h
  simp only [cmdValid_iff, cmdReady_iff, cmdReady_eq_false_iff]
  refine ⟨?_, ?_, fun hheld hfree => ?_⟩
  · rintro ⟨c, rest, hin⟩ hport
    rw [step_of_accepted hin hport] at h
    obtain ⟨htail, -, r, -, htaken, hkept⟩ := performCommand_ports h
    refine ⟨by rw [htail, hin]; rfl, r, htaken, fun hready => ?_⟩
    obtain ⟨hdel, hport'⟩ := hkept hready
    exact ⟨hdel, hport', Option.isSome_of_eq_some hport'⟩
  · rintro ⟨c, rest, hin⟩ hheld
    have hstep := step_of_waiting hin hheld
    obtain rfl := next.inj (hstep.symm.trans h)
    refine ⟨head?_inputs_waitCommand hin, fun hr => ?_, fun hr hquiet => ?_⟩
    · obtain hkept | ⟨_, _, -, hnone, -⟩ := step_of_not_resetNext hr h
      · exact hkept
      · rw [hnone] at hheld; cases hheld
    · obtain ⟨e, -⟩ | ⟨later, rfl, -⟩ | ⟨level, later, rfl, -⟩ := waitCommand_cases c rest s
      · rw [e, hinv.deliver_eq]
      · exact absurd (.inr ⟨hheld, c, later, hin⟩) hr
      · exact absurd hin (hquiet c level later)
  · obtain ⟨r, hport⟩ := Option.isSome_iff_exists.1 hheld
    by_cases hr : ResetNext s
    · exact .inr hr
    · exact .inl ⟨r, hport, delivered_of_step_frees hr h hport hfree⟩

/-! ### One response per command -/

/-- While the host takes responses, a step from a state with the invariant performs the command offered, and the
response is delivered in it. -/
theorem Inv.step_of_command {s : State} (h : Inv s) (hready : s.rspReady = true) {c : Command} {rest : List HostAction}
    (hin : s.inputs = .command c :: rest) :
    ∃ t r, step s = next t ∧ performCommand c { s with inputs := rest } = next t ∧ lastResponse t = some r ∧ Inv t ∧
      t.inputs = rest ∧ t.rspReady = true ∧ t.rspPort = none ∧ t.delivered = s.delivered ++ [r] := by
  have hport := h.rspPort_eq_none hready
  have hinv := h.withInputs rest
  obtain ⟨t, ht⟩ := hinv.performCommand_completes c
  obtain ⟨hin', hready', r, hr, htaken, -⟩ := performCommand_ports ht
  obtain ⟨hdel, hport'⟩ := htaken hready
  exact ⟨t, r, (step_of_accepted hin hport).trans ht, ht, hr, hinv.after_performCommand ht, hin', hready'.trans hready,
    hport', hdel⟩

theorem runSteps_succ_of_step {s t : State} (h : step s = next t) (k : Nat) : runSteps (k + 1) s = runSteps k t := by
  simp only [runSteps, h]

/-- Settles O59: by induction on the commands, each taking one step and giving one response. -/
theorem oneResponsePerCommandInOrder : Obligations.OneResponsePerCommandInOrder := by
  unfold Obligations.OneResponsePerCommandInOrder
  intro cmds
  induction cmds with
  | nil =>
    intro s hinv hready hin
    exact ⟨s, [], rfl, hin, hinv.rspPort_eq_none hready, (List.append_nil _).symm, rfl, nofun⟩
  | cons c rest ih =>
    intro s hinv hready hin
    obtain ⟨t, r, hstep, hperform, hr, hinv', hin', hready', -, hdel⟩ := hinv.step_of_command hready hin
    obtain ⟨t', responses, hrun, hdone, hfree, hdel', hlen, hkth⟩ := ih t hinv' hready' hin'
    refine ⟨t', r :: responses, (runSteps_succ_of_step hstep _).trans hrun, hdone, hfree, ?_, congrArg (· + 1) hlen,
      fun k hk => ?_⟩
    · rw [hdel', hdel, List.append_assoc]; rfl
    · cases k with
      | zero => exact ⟨s, t, rfl, hperform, hr⟩
      | succ k =>
        obtain ⟨u, v, hu, hv, hresponse⟩ := hkth k (Nat.lt_of_succ_lt_succ hk)
        exact ⟨u, v, (runSteps_succ_of_step hstep k).trans hu, hv, hresponse⟩

end Sys2Proof.Machine
end

section
/-! SUPPORT. The frames of the commands, CFG through sequences of commands, and what a rejected command does when sent
again. -/

namespace Sys2Proof.Machine

open Host.Outcome

/-! ### The frames of the commands -/

/-- R80: raising a cell leaves every other cell alone, whatever it is raised from. -/
theorem raiseCell_read_other {s : State} (h : s.reg.wf = true) {i j : Nat} (hj : j ≠ i) (old : RegVal) (rk : Nat) :
    (raiseCell s i old rk).reg.read j = s.reg.read j := by
  obtain ⟨-, e⟩ | ⟨-, e⟩ := raiseCell_cases s i old rk <;> rw [e]
  rw [writeCell_reg, Memory.read_write_other h _ hj]

/-- Settles O50: only a CONFIG or an ADD has an effect, so what these commands do is their response. -/
theorem readOnlyCommandsFrame : Obligations.ReadOnlyCommandsFrame := by
  unfold Obligations.ReadOnlyCommandsFrame
  intro i s t hi h
  obtain ⟨st, a, b, x, u, rfl, he, -⟩ := exec_cases h
  obtain rfl : u = s := by
    cases he with
    | unchanged => rfl
    | constructed w e => subst e; simp at hi
    | raised key old e => subst e; simp at hi
  exact ⟨respond_cfg .., fun j => by rw [respond_reg], respond_reg .., respond_inputs .., respond_rspReady ..,
    respond_draw .., _, rfl⟩

/-- Settles O51: the effects of an ADD are none, and its one cell raised. -/
theorem addFrame : Obligations.AddFrame := by
  unfold Obligations.AddFrame
  intro key s t hwf h
  obtain ⟨st, a, b, x, u, rfl, he, -⟩ := exec_cases h
  obtain ⟨hin, hready, -, -, hdraw⟩ := he.ports
  simp only [respond_cfg, respond_reg, respond_inputs, respond_rspReady, respond_draw]
  cases he with
  | unchanged => exact ⟨rfl, fun _ _ => rfl, fun _ => rfl, hin, hready, hdraw⟩
  | constructed w e => cases e
  | raised _ old e hv =>
    cases e
    refine ⟨raiseCell_cfg .., fun j hj => raiseCell_read_other hwf hj .., fun hv' => ?_, hin, hready, hdraw⟩
    rw [hv] at hv'; cases hv'

/-- Settles O52: the effects of a CONFIG are none, and the construction, which a rejection rules out. -/
theorem configFrame : Obligations.ConfigFrame := by
  unfold Obligations.ConfigFrame
  intro w s t h
  obtain ⟨st, a, b, x, u, e, he, -⟩ := exec_cases h
  obtain ⟨hin, hready, -, -, hdraw⟩ := he.ports
  refine ⟨by rw [e, respond_inputs, hin], by rw [e, respond_rspReady, hready], by rw [e, respond_draw, hdraw],
    fun hrejected => ?_, fun hv h8 h20 => ?_⟩
  · cases he with
    | unchanged => rw [e, respond_cfg, respond_reg]; exact ⟨rfl, rfl⟩
    | constructed w' hi hv h8 h20 =>
      cases hi
      simp only [hv, Bool.false_eq_true, false_or] at hrejected
      omega
    | raised key old hi => cases hi
  · rw [exec_config_of_legal hv h8 h20] at h
    obtain rfl := next.inj h
    exact ⟨respond_cfg .., fun j => by rw [respond_reg, construct_reg, Memory.read_cleared]⟩

/-! ### Sequences of commands on a configured block -/

/-- R71: on a configured block no decoded command changes CFG. -/
theorem exec_cfg {i : Instr} {s t : State} (h : exec i s = next t) (hv : s.cfg.valid = true) : t.cfg = s.cfg := by
  obtain ⟨st, a, b, x, u, rfl, he, -⟩ := exec_cases h
  rw [respond_cfg]
  cases he with
  | unchanged => rfl
  | constructed w _ hv' => rw [hv] at hv'; cases hv'
  | raised key old => exact raiseCell_cfg ..

theorem performAll_cfg {cmds : List Command} {s t : State} (h : performAll cmds s = next t) (hv : s.cfg.valid = true) :
    t.cfg = s.cfg := by
  induction cmds generalizing s with
  | nil => cases h; rfl
  | cons c rest ih =>
    obtain ⟨u, hfirst, hrest⟩ := performAll_cons h
    have hcfg := performCommand_cfg hfirst hv
    exact (ih hrest (hcfg ▸ hv)).trans hcfg

theorem execAll_cfg {is : List Instr} {s t : State} (h : execAll is s = next t) (hv : s.cfg.valid = true) :
    t.cfg = s.cfg := by
  induction is generalizing s with
  | nil => cases h; rfl
  | cons i rest ih =>
    obtain ⟨u, hfirst, hrest⟩ := execAll_cons h
    have hcfg := exec_cfg hfirst hv
    exact (ih hrest (hcfg ▸ hv)).trans hcfg

/-- Settles O22: CFG is kept along the sequence, and CONFIG of a configured block is rejected. -/
theorem noSecondConfigUntilReset : Obligations.NoSecondConfigUntilReset := by
  unfold Obligations.NoSecondConfigUntilReset
  refine ⟨fun w between s t hv h => ?_, fun w between s t hv h => ?_⟩
  · have hcfg := performAll_cfg h hv
    exact ⟨hcfg, exec_alreadyConfigured (hcfg ▸ hv) rfl⟩
  · have hcfg := execAll_cfg h hv
    exact ⟨hcfg, exec_alreadyConfigured (hcfg ▸ hv) rfl⟩

/-- Settles O33: the READREG reads the array that the ADD has raised. -/
theorem readregAfterAdd : Obligations.ReadregAfterAdd := by
  unfold Obligations.ReadregAfterAdd
  intro key index s t hinv hv h hi
  have hc := hinv.configured hv
  obtain ⟨t', ht', hraised⟩ := exec_add_raises hc hinv.canonical key
  obtain rfl := next.inj (ht'.symm.trans h)
  have hread := exec_readreg_of_lt (hraised.configured hc) (hraised.width_eq.symm ▸ hi)
  refine ⟨_, hread, ?_⟩
  rw [toNat_zextReg, hraised.read, largestRank_cons, largestRank_nil, keyIndex]
  simp only [BitVec.toNat_inj, eq_comm (a := index)]
  split <;> simp

/-! ### Rejections -/

/-- R107, R108: a command that finds the configuration state it needs is rejected for its operand's value. -/
theorem exec_of_valueError {i : Instr} {s : State} {st : Status}
    (hc : ¬(needsConfig i = true ∧ s.cfg.valid = false)) (hu : ¬(needsUnconfigured i = true ∧ s.cfg.valid = true))
    (h : valueError s i = some st) : exec i s = next (reject st s) := by
  cases i with
  | config w =>
    have hv : s.cfg.valid = false := by simpa [needsUnconfigured] using hu
    simp only [valueError, ite_eq_iff, reduceCtorEq, and_false, false_or, Option.some.injEq] at h
    obtain ⟨hw, rfl⟩ := h
    exact exec_config_badWidth hv (by omega)
  | readreg index =>
    have hv : s.cfg.valid = true := by simpa [needsConfig] using hc
    simp only [valueError, ite_eq_iff, reduceCtorEq, and_false, false_or, Option.some.injEq] at h
    obtain ⟨hi, rfl⟩ := h
    exact exec_readreg_badArg hv (Nat.not_lt.1 hi)
  | split n word =>
    simp only [valueError, ite_eq_iff, reduceCtorEq, and_false, or_false, Option.some.injEq] at h
    obtain ⟨hn, rfl⟩ := h
    exact exec_split_of_undefined (.inl hn) word s
  | _ => cases h

/-- R109, R110: a command whose expected status is not OK is rejected with that status. -/
theorem performCommand_of_rejected {c : Command} {s : State} (h : expectedStatus c s ≠ .ok) :
    performCommand c s = next (reject (expectedStatus c s) s) := by
  obtain ⟨e, hd, hp⟩ | ⟨i, hd, hp⟩ := performCommand_cases c s
  · rw [hp, expectedStatus, hd]
  · rw [hp]
    simp only [expectedStatus, hd] at h ⊢
    by_cases hc : needsConfig i = true ∧ s.cfg.valid = false
    · rw [if_pos hc, exec_notConfigured hc.2 hc.1]
    by_cases hu : needsUnconfigured i = true ∧ s.cfg.valid = true
    · rw [if_neg hc, if_pos hu, exec_alreadyConfigured hu.2 hu.1]
    rw [if_neg hc, if_neg hu] at h ⊢
    cases hvalue : valueError s i with
    | none => rw [hvalue] at h; exact absurd rfl h
    | some st => exact exec_of_valueError hc hu hvalue

/-- R110: the status of a command depends on CFG alone. -/
theorem expectedStatus_congr {s t : State} (h : t.cfg = s.cfg) (c : Command) :
    expectedStatus c t = expectedStatus c s := by
  have hvalue (i : Instr) : valueError t i = valueError s i := by
    cases i <;> simp only [valueError, h]
  simp only [expectedStatus, h, hvalue]

/-- Settles O49: a rejection leaves CFG, so the command's status is the same again, and a rejection's results are 0. -/
theorem rejectionIsRepeatable : Obligations.RejectionIsRepeatable := by
  unfold Obligations.RejectionIsRepeatable
  intro c s t r h hr hne
  obtain ⟨a, b, x, u, rfl⟩ := performCommand_status h
  obtain ⟨h0, h1, hsum, -, hcfg, -⟩ := rejectedCommandChangesNothing c s _ r h hr hne
  rw [lastResponse_respond] at hr; cases hr
  obtain ⟨rfl, rfl, rfl⟩ : a = 0 ∧ b = 0 ∧ x = 0 := ⟨h0, h1, hsum⟩
  have hstatus := expectedStatus_congr hcfg c
  have hrejected : expectedStatus c s ≠ .ok := fun e => hne (congrArg Status.code e)
  refine ⟨_, performCommand_of_rejected (by rwa [hstatus]), ?_⟩
  rw [lastResponse_reject, hstatus]

end Sys2Proof.Machine
end
